-- ==== Sys2Proof/Word.lean ====
section
/-!
DEFINITION. The fixed widths of the core (00_scope.md R8, section "Widths that are fixed"). Byte and word order,
and every field of a word, are read by functions of Decode.lean and Machine/Operands.lean.
-/

namespace Sys2Proof

/-- 8 bits: a frame byte, a function code, a unit id, the byte-count field (R8). -/
abbrev Byte := BitVec 8

/-- 16 bits: a store word, a wire address, a quantity, a register value (R8). -/
abbrev Word := BitVec 16

/-- 32 bits: a host-port data value (R8, R101), a U32 or the bit pattern of a binary32 float (R147). -/
abbrev DWord := BitVec 32

end Sys2Proof
end

