-- ==== Sys2Proof/Config.lean ====
section
/-!
DEFINITION. What the build of the core fixes (00_scope.md R8, R9) and the two free values of the model: the contents
of the store after reset, which the spec leaves unspecified (R320), and the interleaving of the two ports, which it
leaves open (R75).
-/

namespace Sys2Proof

/-- What the MBAP length field counts (R92): the bytes after the unit id, or the bytes after the length field. -/
inductive LenMode where
  | afterUnitId
  | afterLengthField
  deriving DecidableEq, Repr

/-- The build-time parameters that frames are read and built with (R8): LEN_MODE and MAX_ADU. N is the length of the
store. No operation and no reset changes them (R36, R323). Log 1. -/
structure Params where
  lenMode : LenMode
  maxAdu  : Nat
  deriving DecidableEq, Repr

/-- The legal settings of MAX_ADU, `12 ≤ MAX_ADU ≤ 65542` (R8, D4). -/
abbrev Params.Legal (p : Params) : Prop := 12 ≤ p.maxAdu ∧ p.maxAdu ≤ 65542

/-- The legal store sizes, `1 ≤ N ≤ 125` (R8, D5). -/
abbrev Config.LegalSize (n : Nat) : Prop := 1 ≤ n ∧ n ≤ 125

/-- This hardware's parameters (R8): LEN_MODE is AFTER_UNIT_ID, MAX_ADU is 260. -/
def Config.params : Params := { lenMode := .afterUnitId, maxAdu := 260 }

/-- This hardware's store size, N = 32 (R8). -/
def Config.size : Nat := 32

/-- INIT_STORE (R8, R320): what the store holds after reset. Unspecified: a claim holds for every value of it.
A free value, with no body (log 2). -/
opaque Config.initStore : Nat → Word

/-- How the two ports interleave (R75, R76) is not specified, but fair. The k-th burst length is how many contested grants
one port gets before the other is next served, and it is a free value. Every fair interleaving is a choice of such
lengths, and every choice of them is fair (log 3 says why). -/
opaque Config.burst : Nat → Nat

end Sys2Proof
end

