-- ==== Sys2Proof/Syntax.lean ====
section
/-!
DEFINITION. The instructions of the core, one constructor for each row of spec/opcode_table.json: five selected by the
function-code byte of a frame (R96) and seven selected by the op field of a host operation (R101), and what the two
ports take in before it is decoded.
-/

namespace Sys2Proof

/-- The opaque bytes of a frame: the transaction id's two bytes and the unit id (R90, R185). They are copied into the
response and used for nothing else. -/
structure Header where
  tid0 : Byte
  tid1 : Byte
  uid  : Byte
  deriving DecidableEq, Repr

/-- A frame that decodeADU accepted (R180): its opaque bytes, its function code and its payload. -/
structure Frame where
  hdr     : Header
  fc      : Byte
  payload : List Byte
  deriving DecidableEq, Repr

/-- A host operation as it stands on the host port: the triple `(op[2:0], addr[15:0], wdata[31:0])` (R40, R101). -/
structure HostOp where
  op    : BitVec 3
  addr  : Word
  wdata : DWord
  deriving DecidableEq, Repr

/-- One operation of either port before it is decoded: a whole inbound frame, or a host operation. -/
inductive Transaction where
  | frame  (b : List Byte)
  | hostOp (o : HostOp)
  deriving DecidableEq, Repr

/-- Why a frame is malformed (R181 to R184, R186). Every reason has the same outcome, DROPPED (R287). -/
inductive Malformed where
  /-- shorter than 8 bytes (R181) -/
  | tooShort
  /-- longer than MAX_ADU bytes (R182) -/
  | tooLong
  /-- a protocol id other than 0 (R183) -/
  | protocolId
  /-- a length field other than `lenOf(F - 8)` (R184) -/
  | lengthField
  /-- a supported function code whose payload has the wrong length for it (R186) -/
  | payloadLength
  deriving DecidableEq, Repr

/-- The instructions (opcode_table.json). -/
inductive Instr where
  /-- READ_HOLDING_REGISTERS, FC 0x03: start wire address `a`, quantity `q` (R222). -/
  | readHoldingRegisters (h : Header) (a q : Word)
  /-- READ_HOLDING_REGISTERS_04, FC 0x04: the same operation (R223). -/
  | readHoldingRegisters04 (h : Header) (a q : Word)
  /-- WRITE_SINGLE_REGISTER, FC 0x06: wire address `a`, value `v` (R224). -/
  | writeSingleRegister (h : Header) (a v : Word)
  /-- WRITE_MULTIPLE_REGISTERS, FC 0x10: start wire address, quantity, byte count, data bytes (R225). -/
  | writeMultipleRegisters (h : Header) (a q : Word) (bc : Byte) (data : List Byte)
  /-- ILLEGAL_FUNCTION: any other function code, with its opaque payload (R226). -/
  | illegalFunction (h : Header) (fc : Byte) (payload : List Byte)
  /-- getU16, host op 000 (R141). -/
  | getU16 (a : Word)
  /-- setU16, host op 001: the value is `wdata[15:0]` (R142). -/
  | setU16 (a : Word) (wdata : DWord)
  /-- getU32, host op 010 (R143). -/
  | getU32 (a : Word)
  /-- setU32, host op 011 (R144). -/
  | setU32 (a : Word) (wdata : DWord)
  /-- getFloat, host op 100 (R145). -/
  | getFloat (a : Word)
  /-- setFloat, host op 101: `wdata` is a binary32 bit pattern (R146). -/
  | setFloat (a : Word) (wdata : DWord)
  /-- HOST_RESERVED, host op 11r: the table's field `r` is op[0] (R148). -/
  | hostReserved (r : Bool) (a : Word) (wdata : DWord)
  deriving DecidableEq, Repr

end Sys2Proof
end

