-- ==== Sys2Proof/Decode.lean ====
section
/-!
DEFINITION. The frame decoder (decodeADU R180, parsePDU R186), the host-port decoder (R101), the frame builder that the
responses and the requests share (R95, R102, R188), the encoder of instructions, the symbolic notation and
pseudo-operations (R102, R103), and the reading of an opcode-table word. Decoding reads the frame's bytes and the
parameters, never the store (R79).
-/

namespace Sys2Proof

/-! ### Bytes and words -/

/-- `be16(x, y) = x * 256 + y`: high byte first (R12, R67, R91). -/
def be16 (x y : Byte) : Word := x ++ y

/-- `hi8(v) = v[15:8]` (R12). -/
def hi8 (v : Word) : Byte := v.extractLsb' 8 8

/-- `lo8(v) = v[7:0]` (R12). -/
def lo8 (v : Word) : Byte := v.extractLsb' 0 8

/-- `v[15:0]`, the half of a 32-bit value that stands at the lower index (R68). -/
def lowWord (v : DWord) : Word := v.extractLsb' 0 16

/-- `v[31:16]`, the half of a 32-bit value that stands at the higher index (R68). -/
def highWord (v : DWord) : Word := v.extractLsb' 16 16

/-- `join32(lo, hi) = hi * 65536 + lo` (R68). -/
def join32 (lo hi : Word) : DWord := hi ++ lo

/-- A word as it goes on the wire, high byte first (R67). -/
def wordBytes (v : Word) : List Byte := [hi8 v, lo8 v]

/-- Words as they go on the wire, in ascending order (R67, R95). -/
def wordsToBytes : List Word → List Byte
  | [] => []
  | w :: ws => wordBytes w ++ wordsToBytes ws

/-! ### Frames -/

/-- The four supported function codes (R2, R96). -/
def supportedFunctions : List Byte := [0x03, 0x04, 0x06, 0x10]

/-- `lenOf(P)`, the length field of a frame whose payload has P bytes (R92). -/
def lenOf (p : Params) (payloadBytes : Nat) : Nat :=
  match p.lenMode with
  | .afterUnitId => 1 + payloadBytes
  | .afterLengthField => 2 + payloadBytes

/-- A frame: `TID 00 00 L UID FC payload` with `L = lenOf(len(payload))`, written big-endian (R95, R102, R188, R189).
Responses and well-formed requests have this one layout. -/
def frameBytes (p : Params) (h : Header) (fc : Byte) (payload : List Byte) : List Byte :=
  let n : Word := BitVec.ofNat 16 (lenOf p payload.length)
  [h.tid0, h.tid1, 0x00, 0x00, hi8 n, lo8 n, h.uid, fc] ++ payload

/-- encodeException (R188): the request's function code with bit 7 set, and the one-byte code. -/
def encodeException (p : Params) (h : Header) (fc code : Byte) : List Byte :=
  frameBytes p h (fc ||| 0x80) [code]

/-- decodeADU (R180): the header checks, R181 to R184, each before the fields it guards are read (R187). -/
def decodeADU (p : Params) (b : List Byte) : Except Malformed Frame :=
  match b with
  | t0 :: t1 :: p0 :: p1 :: l0 :: l1 :: u :: fc :: payload =>
    if p.maxAdu < b.length then .error .tooLong
    else if be16 p0 p1 ≠ 0 then .error .protocolId
    else if (be16 l0 l1).toNat ≠ lenOf p payload.length then .error .lengthField
    else .ok { hdr := { tid0 := t0, tid1 := t1, uid := u }, fc := fc, payload := payload }
  | _ => .error .tooShort

/-- The payload of RQ_READ and RQ_WRITE1: exactly two 16-bit fields, or the payload is malformed (R93, R186). -/
def parseTwoWords (payload : List Byte) (k : Word → Word → Instr) : Except Malformed Instr :=
  match payload with
  | [x0, x1, y0, y1] => .ok (k (be16 x0 x1) (be16 y0 y1))
  | _ => .error .payloadLength

/-- The payload of RQ_WRITEN: address, quantity, byte count, and exactly as many data bytes as that says (R93, R186).
An odd byte count, or one that does not match the quantity, is accepted here (R186). -/
def parseWriteN (h : Header) (payload : List Byte) : Except Malformed Instr :=
  match payload with
  | a0 :: a1 :: q0 :: q1 :: bc :: data =>
    if data.length = bc.toNat then .ok (.writeMultipleRegisters h (be16 a0 a1) (be16 q0 q1) bc data)
    else .error .payloadLength
  | _ => .error .payloadLength

/-- parsePDU (R186): the operation the function code selects (R96, R221), with its fields. A function code that is not
supported is never dropped for its payload. -/
def parsePDU (fr : Frame) : Except Malformed Instr :=
  if fr.fc = 0x03 then parseTwoWords fr.payload (.readHoldingRegisters fr.hdr)
  else if fr.fc = 0x04 then parseTwoWords fr.payload (.readHoldingRegisters04 fr.hdr)
  else if fr.fc = 0x06 then parseTwoWords fr.payload (.writeSingleRegister fr.hdr)
  else if fr.fc = 0x10 then parseWriteN fr.hdr fr.payload
  else .ok (.illegalFunction fr.hdr fr.fc fr.payload)

/-- The two stages of the frame decoder, as R220 chains them. -/
def decodeFrame (p : Params) (b : List Byte) : Except Malformed Instr :=
  match decodeADU p b with
  | .error e => .error e
  | .ok fr => parsePDU fr

/-! ### Host operations -/

/-- The operation the op field selects (R101). A get ignores wdata. Codes 110 and 111 are reserved (R148). -/
def decodeHostOp (o : HostOp) : Instr :=
  if o.op = 0b000 then .getU16 o.addr
  else if o.op = 0b001 then .setU16 o.addr o.wdata
  else if o.op = 0b010 then .getU32 o.addr
  else if o.op = 0b011 then .setU32 o.addr o.wdata
  else if o.op = 0b100 then .getFloat o.addr
  else if o.op = 0b101 then .setFloat o.addr o.wdata
  else .hostReserved (o.op.getLsbD 0) o.addr o.wdata

/-- Decoding whatever a port carries. Total: a frame that is no instruction is rejected by name. -/
def decode (p : Params) : Transaction → Except Malformed Instr
  | .frame b => decodeFrame p b
  | .hostOp o => .ok (decodeHostOp o)

/-! ### The encoder -/

/-- What the port carries for an instruction (R93, R101, R102). The wdata of a get, which the core ignores, is zero. -/
def encode (p : Params) : Instr → Transaction
  | .readHoldingRegisters h a q => .frame (frameBytes p h 0x03 (wordBytes a ++ wordBytes q))
  | .readHoldingRegisters04 h a q => .frame (frameBytes p h 0x04 (wordBytes a ++ wordBytes q))
  | .writeSingleRegister h a v => .frame (frameBytes p h 0x06 (wordBytes a ++ wordBytes v))
  | .writeMultipleRegisters h a q bc data =>
      .frame (frameBytes p h 0x10 (wordBytes a ++ wordBytes q ++ bc :: data))
  | .illegalFunction h fc payload => .frame (frameBytes p h fc payload)
  | .getU16 a => .hostOp { op := 0b000, addr := a, wdata := 0 }
  | .setU16 a w => .hostOp { op := 0b001, addr := a, wdata := w }
  | .getU32 a => .hostOp { op := 0b010, addr := a, wdata := 0 }
  | .setU32 a w => .hostOp { op := 0b011, addr := a, wdata := w }
  | .getFloat a => .hostOp { op := 0b100, addr := a, wdata := 0 }
  | .setFloat a w => .hostOp { op := 0b101, addr := a, wdata := w }
  | .hostReserved r a w => .hostOp { op := if r then 0b111 else 0b110, addr := a, wdata := w }

/-! ### Symbolic notation and pseudo-operations (R102, R103; log 16) -/

/-- `tid=T uid=U`: TID is `hi8(T) lo8(T)` (R102). -/
def header (tid : Word) (uid : Byte) : Header := { tid0 := hi8 tid, tid1 := lo8 tid, uid := uid }

/-- `RDHR tid uid addr qty` (R102). -/
def rdhr (tid : Word) (uid : Byte) (addr qty : Word) : Instr :=
  .readHoldingRegisters (header tid uid) addr qty

/-- `RDHR4 tid uid addr qty` (R102). -/
def rdhr4 (tid : Word) (uid : Byte) (addr qty : Word) : Instr :=
  .readHoldingRegisters04 (header tid uid) addr qty

/-- `WRSR tid uid addr val` (R102). -/
def wrsr (tid : Word) (uid : Byte) (addr val : Word) : Instr :=
  .writeSingleRegister (header tid uid) addr val

/-- `WRMR tid uid addr qty bc data` with the byte count written out, which lets an inconsistent request be spelled
(R102). -/
def wrmrCounted (tid : Word) (uid : Byte) (addr qty : Word) (bc : Byte) (words : List Word) : Instr :=
  .writeMultipleRegisters (header tid uid) addr qty bc (wordsToBytes words)

/-- `WRMR tid uid addr qty data`: the byte count defaults to twice the number of data words (R102). -/
def wrmr (tid : Word) (uid : Byte) (addr qty : Word) (words : List Word) : Instr :=
  wrmrCounted tid uid addr qty (BitVec.ofNat 8 (2 * words.length)) words

/-- `FCxx tid uid payload`: the frame of any function code (R102). -/
def fcxx (p : Params) (fc : Byte) (tid : Word) (uid : Byte) (payload : List Byte) : List Byte :=
  frameBytes p (header tid uid) fc payload

/-- `WRF32 tid uid addr val`: one request that writes a 32-bit or float value, low word first (R103). -/
def wrf32 (tid : Word) (uid : Byte) (addr : Word) (x : DWord) : Instr :=
  wrmr tid uid addr 2 [lowWord x, highWord x]

/-- `RDF32 tid uid addr`: the two words of a 32-bit or float value (R103). -/
def rdf32 (tid : Word) (uid : Byte) (addr : Word) : Instr := rdhr tid uid addr 2

/-! ### Opcode-table words (log 8) -/

/-- Byte `k` of a word whose bit 0 is the least significant bit of its first byte. -/
def tableByte (w k : Nat) : Byte := BitVec.ofNat 8 (w / 2 ^ (8 * k))

/-- How many payload bytes the frame of a table word has: what the function code's format needs (R93), and for a code
that is not supported as many as the word gives. -/
def tablePayloadBytes (nbits w : Nat) : Nat :=
  let fc := tableByte w 0
  if fc = 0x10 then 5 + (tableByte w 5).toNat
  else if fc ∈ supportedFunctions then 4
  else nbits / 8 - 1

/-- The frame of a table word: the word's first byte is the function code b[7], to which the table's match and mask
apply, and its further bytes are b[8], b[9], ...; TID and UID are zero and the length field is the frame's own. -/
def tableFrame (p : Params) (nbits w : Nat) : List Byte :=
  frameBytes p { tid0 := 0, tid1 := 0, uid := 0 } (tableByte w 0)
    ((List.range (tablePayloadBytes nbits w)).map fun k => tableByte w (k + 1))

/-- The host operation of a table word: op[2:0] is bits 2 to 0, and addr and wdata count on from it. -/
def tableHostOp (w : Nat) : HostOp :=
  { op := BitVec.ofNat 3 w, addr := BitVec.ofNat 16 (w / 2 ^ 3), wdata := BitVec.ofNat 32 (w / 2 ^ 19) }

/-- The table holds rows of two ports. A word narrower than a byte is an op field. A word of one byte goes to the first
row of the table it matches, the ILLEGAL_FUNCTION row standing last, since it matches only where no other row does. -/
def tableTransaction (p : Params) (nbits w : Nat) : Transaction :=
  if nbits < 8 then .hostOp (tableHostOp w)
  else if tableByte w 0 ∈ supportedFunctions then .frame (tableFrame p nbits w)
  else if nbits = 8 ∧ w < 8 then .hostOp (tableHostOp w)
  else .frame (tableFrame p nbits w)

/-- The instruction the decoder reads from an opcode-table word, under this hardware's parameters (R8). -/
def decodeTableWord (nbits w : Nat) : Option Instr :=
  match decode Config.params (tableTransaction Config.params nbits w) with
  | .ok i => some i
  | .error _ => none

end Sys2Proof
end

