-- ==== Sys2Proof/Machine/Operands.lean ====
section
/-!
DEFINITION. The one addressing mode of the core, an absolute wire address (R233), its bounds (R61 to R64), and the
32-bit views of two store words (R68, R147). All of it is on unbounded integers, so nothing wraps (R11, R228).
-/

namespace Sys2Proof.Machine

/-- `ADDR_BASE`, the wire address of store index 0 (R8, R9). -/
def addrBase : Int := 40001

/-- `index(a) = a - 40001`, negative for every address below the map (R14, R61). -/
def index (a : Word) : Int := (a.toNat : Int) - addrBase

/-- A 16-bit access at `a` is valid (R62). -/
abbrev valid16 (n : Nat) (a : Word) : Prop := 0 ≤ index a ∧ index a < n

/-- A 32-bit access at `a` is valid (R63). -/
abbrev valid32 (n : Nat) (a : Word) : Prop := 0 ≤ index a ∧ index a + 1 < n

/-- A range of `q` words starting at `a` is valid (R64). -/
abbrev validRange (n : Nat) (a : Word) (q : Nat) : Prop := 0 ≤ index a ∧ index a + q ≤ n

/-- The store index of a mapped address, whose `index` is not negative (R61). -/
def slot (a : Word) : Nat := (index a).toNat

/-- A binary32 value, as its bit pattern: the core never interprets it (R147). -/
abbrev F32 := BitVec 32

/-- The bit-cast from a float to its pattern, exact and total (R147). -/
def f32ToBits (f : F32) : DWord := f

/-- The bit-cast from a pattern to a float, exact and total (R147). -/
def bitsToF32 (v : DWord) : F32 := v

/-- Data word `k` of a Write Multiple Registers request: `be16(data[2k], data[2k+1])` (R93, R225). The decoder has
checked that the bytes are there; log 10 says what this reads where they are not. -/
def dataWord (data : List Byte) (k : Nat) : Word := be16 (data.getD (2 * k) 0) (data.getD (2 * k + 1) 0)

/-- The `q` words a Write Multiple Registers request writes (R225). -/
def dataWords (data : List Byte) (q : Nat) : List Word := (List.range q).map (dataWord data)

end Sys2Proof.Machine
end

