-- ==== Sys2Proof/Machine/State.lean ====
section
/-!
DEFINITION. The state of the core as plain data, the reasons a step can stop, and the state after reset.
The spec's state is the store (R30) and, within a transaction, the port sequencers and the two buffers (R37, R42). The
two queues and the two sequences are what the ports have taken in and given out (R38, R40, R331). The last three
fields are the model's own, and hold the interleaving that the spec leaves open (R75).
-/

namespace Sys2Proof.Machine

/-- The two ports of the core (R7, R38, R40), which are also the two agents' identities (R293). -/
inductive Port where
  | protocol
  | host
  deriving DecidableEq, Repr

/-- The outcome of one protocol transaction (R38): bytes to send, or DROPPED. -/
inductive ProtocolOutcome where
  | response (bytes : List Byte)
  | dropped
  deriving DecidableEq, Repr

/-- The error kinds of the core (R280). -/
inductive ErrorKind where
  | addressOutOfRange
  | unsupportedFunction
  | malformedFrame
  | internalStoreFailure
  | quantityMismatch
  deriving DecidableEq, Repr

/-- The Modbus exceptions (R99, R282). Nothing raises slaveDeviceFailure (R289). -/
inductive ExceptionCode where
  | illegalFunction
  | illegalDataAddress
  | illegalDataValue
  | slaveDeviceFailure
  deriving DecidableEq, Repr

/-- The result of one host operation (R40): the 16-bit value of getU16, the 32-bit value of getU32 and getFloat, the
bare success of a set, or an error, which carries no value. -/
inductive HostResult where
  | ok16 (v : Word)
  | ok32 (v : DWord)
  | ok
  | err (e : ErrorKind)
  deriving DecidableEq, Repr

/-- The state of the core. -/
structure State where
  /-- LEN_MODE and MAX_ADU (R8, R36); log 1 -/
  params   : Params
  /-- the register store, `store[0]` to `store[N-1]` (R30); N is its length, log 1 -/
  store    : List Word
  /-- frames the transport has delivered and the core has not accepted, oldest first (R35, R38); log 4 -/
  frames   : List (List Byte)
  /-- host operations issued and not accepted, oldest first (R35, R40); log 4 -/
  hostOps  : List HostOp
  /-- the transaction in progress: both sequencers are idle when it is none, and the frame in it is the inbound buffer's
  contents (R37, R42, R73); log 5 -/
  inFlight : Option Transaction
  /-- the outbound response buffer (R37); log 5 -/
  outbound : List Byte
  /-- the outcomes the protocol port has returned, oldest first (R38, R331); log 6 -/
  outcomes : List ProtocolOutcome
  /-- the results the host port has returned, oldest first (R40, R331); log 6 -/
  results  : List HostResult
  /-- MODEL'S OWN: the port that a contested grant favours; log 3 -/
  turn     : Port
  /-- MODEL'S OWN: the contested grants `turn` has left before the other port's next one; log 3 -/
  credit   : Nat
  /-- MODEL'S OWN: how many burst lengths have been drawn from Config.burst; log 3 -/
  draws    : Nat
  deriving DecidableEq, Repr

/-- What stops the machine with a fault. -/
inductive Fault where
  /-- InternalStoreFailure, "reserved for store corruption, not expected in normal operation" (R280). Raised by nothing:
  no operation of this core can corrupt the store (R289). UNSAFE only if real hardware raised it (log 9). -/
  | internalStoreFailure
  deriving DecidableEq, Repr

/-- What the model gives no step for. -/
inductive Refusal where
  /-- An instruction whose meaning is not written. Raised by no arm of exec. Safe. -/
  | notModelled (mnemonic : String)
  /-- A host operation with op code 110 or 111: "a model refuses a host step with one of these codes" (R148). Raised by
  execHostReserved. Safe: a claim about a run that issues one says nothing. -/
  | reservedHostOp (op : BitVec 3)
  deriving DecidableEq, Repr

/-- The state after reset, for every build and every INIT_STORE: `store[i] = INIT_STORE(i)`, both ports idle, the
buffers empty, nothing pending, nothing owed (R320, R321, R322). -/
def State.resetWith (p : Params) (n : Nat) (init : Nat → Word) : State :=
  { params := p
    store := (List.range n).map init
    frames := []
    hostOps := []
    inFlight := none
    outbound := []
    outcomes := []
    results := []
    turn := .protocol
    credit := Config.burst 0
    draws := 1 }

/-- This hardware right after reset: N = 32, LEN_MODE = AFTER_UNIT_ID, MAX_ADU = 260 (R8), and the store at the
unspecified INIT_STORE (R320). -/
def State.reset : State := State.resetWith Config.params Config.size Config.initStore

end Sys2Proof.Machine
end

