-- ==== Sys2Proof/Machine/Ops.lean ====
section
/-!
DEFINITION. The named operations of the core: reading and writing the store (R12, R30), ending a protocol transaction
with an outcome (R38), raising an exception (R286), dropping a frame (R287), and returning a host result (R40).
-/

namespace Sys2Proof.Machine

/-! ### The store -/

/-- `N`, the number of store words (R8, R30). -/
def State.n (s : State) : Nat := s.store.length

/-- `StoreRead(i)` (R12). Every use comes after a bounds check, so the default is never read (log 10). -/
def State.readWord (s : State) (i : Nat) : Word := s.store.getD i 0

/-- `StoreWrite(i, v)` (R12), the only state-changing primitive of the spec (R13). -/
def State.writeWord (s : State) (i : Nat) (v : Word) : State := { s with store := s.store.set i v }

/-- The `q` words from index `i` on, in ascending order (R222, R233). -/
def State.readWords (s : State) (i q : Nat) : List Word := (List.range q).map fun k => s.readWord (i + k)

/-- Writing words from index `i` on, in ascending order (R225, R233). -/
def State.writeWords (s : State) (i : Nat) : List Word → State
  | [] => s
  | w :: ws => (s.writeWord i w).writeWords (i + 1) ws

/-- The 32-bit value of the words at `i` and `i + 1`, low word first (R68, R143). -/
def State.readDouble (s : State) (i : Nat) : DWord := join32 (s.readWord i) (s.readWord (i + 1))

/-- A 32-bit value into the words at `i` and `i + 1`, low word first (R68, R144). -/
def State.writeDouble (s : State) (i : Nat) (v : DWord) : State :=
  (s.writeWord i (lowWord v)).writeWord (i + 1) (highWord v)

/-! ### The protocol port -/

/-- Putting a response into the outbound buffer (R37). -/
def State.loadOutbound (s : State) (bytes : List Byte) : State := { s with outbound := bytes }

/-- Ending the protocol transaction with an outcome: the port is idle again and its buffers are empty (R288, R321). -/
def State.endProtocol (s : State) (o : ProtocolOutcome) : State :=
  { s with outcomes := s.outcomes ++ [o], inFlight := none, outbound := [] }

/-- Sending the outbound buffer: the outcome RESPONSE with its bytes (R38). -/
def State.send (s : State) : State := s.endProtocol (.response s.outbound)

/-- `emit(bytes)` (R12). -/
def State.emit (s : State) (bytes : List Byte) : State := (s.loadOutbound bytes).send

/-- `drop(MalformedFrame)` (R12, R287): no byte is sent, no store word is touched, the port serves the next frame. -/
def State.drop (s : State) : State := s.endProtocol .dropped

/-- The one-byte code of an exception (R99, R282). -/
def ExceptionCode.byte : ExceptionCode → Byte
  | .illegalFunction => 1
  | .illegalDataAddress => 2
  | .illegalDataValue => 3
  | .slaveDeviceFailure => 4

/-- What an error is on the protocol port (R281): the exception it becomes, or none where the frame is dropped. -/
def ErrorKind.exception : ErrorKind → Option ExceptionCode
  | .malformedFrame => none
  | .unsupportedFunction => some .illegalFunction
  | .quantityMismatch => some .illegalDataValue
  | .addressOutOfRange => some .illegalDataAddress
  | .internalStoreFailure => some .slaveDeviceFailure

/-- TAKING AN EXCEPTION (R281, R283, R286): no store word is written, no state is saved, and the transaction ends with
the 9-byte exception response, which records the request's TID, UID and function code and the exception's code. There
is no return from an exception, and nothing to restore (R288). -/
def State.raise (s : State) (h : Header) (fc : Byte) (e : ErrorKind) : State :=
  match e.exception with
  | some c => s.emit (encodeException s.params h fc c.byte)
  | none => s.drop

/-! ### The host port -/

/-- `return v`: the host operation ends with a result and the port is idle again (R40, R288). -/
def State.endHost (s : State) (r : HostResult) : State :=
  { s with results := s.results ++ [r], inFlight := none }

/-- `fail AddressOutOfRange` (R12, R140): an error with no value, and no store word written. -/
def State.failHost (s : State) : State := s.endHost (.err .addressOutOfRange)

end Sys2Proof.Machine
end

