-- ==== Sys2Proof/Machine/HostAccess.lean ====
section
/-!
DEFINITION. The meanings of the host operations (40_register_store.md). Each checks its bounds before it touches the
store, and on failure returns an error and writes no word (R140).
-/

namespace Sys2Proof.Machine

/-- getU16 (R141). -/
def execGetU16 (a : Word) (s : State) : Host.Outcome State Fault Refusal :=
  if valid16 s.n a then .next (s.endHost (.ok16 (s.readWord (slot a)))) else .next s.failHost

/-- setU16 (R142): the value is `wdata[15:0]`; `wdata[31:16]` is ignored. -/
def execSetU16 (a : Word) (wdata : DWord) (s : State) : Host.Outcome State Fault Refusal :=
  if valid16 s.n a then .next ((s.writeWord (slot a) (lowWord wdata)).endHost .ok) else .next s.failHost

/-- A 32-bit read, low word first (R143). -/
def read32 (a : Word) (s : State) : Host.Outcome State Fault Refusal :=
  if valid32 s.n a then .next (s.endHost (.ok32 (s.readDouble (slot a)))) else .next s.failHost

/-- A 32-bit write of both words or neither (R144). -/
def write32 (a : Word) (v : DWord) (s : State) : Host.Outcome State Fault Refusal :=
  if valid32 s.n a then .next ((s.writeDouble (slot a) v).endHost .ok) else .next s.failHost

/-- getU32 (R143). -/
def execGetU32 (a : Word) (s : State) : Host.Outcome State Fault Refusal := read32 a s

/-- setU32 (R144). -/
def execSetU32 (a : Word) (wdata : DWord) (s : State) : Host.Outcome State Fault Refusal := write32 a wdata s

/-- getFloat (R145): the bit pattern of the float, unchanged whatever it denotes (R147). -/
def execGetFloat (a : Word) (s : State) : Host.Outcome State Fault Refusal :=
  if valid32 s.n a then .next (s.endHost (.ok32 (f32ToBits (bitsToF32 (s.readDouble (slot a))))))
  else .next s.failHost

/-- setFloat (R146): the pattern is stored bit-exact; no value is an error (R147). -/
def execSetFloat (a : Word) (wdata : DWord) (s : State) : Host.Outcome State Fault Refusal :=
  write32 a (f32ToBits (bitsToF32 wdata)) s

/-- HOST_RESERVED, op codes 110 and 111: "a model refuses a host step with one of these codes" (R148, D10). -/
def execHostReserved (r : Bool) (_s : State) : Host.Outcome State Fault Refusal :=
  .refused (.reservedHostOp (if r then 0b111 else 0b110))

end Sys2Proof.Machine
end

