-- ==== Sys2Proof/Machine/Protocol.lean ====
section
/-!
DEFINITION. The meanings of the five protocol instructions (42_request_processor.md). Each ends its transaction with
exactly one outcome, and checks everything before the first store write (R229). The order of the checks is R284's.
-/

namespace Sys2Proof.Machine

/-- execRead (R222), shared by function codes 0x03 and 0x04 (R223): the response carries the request's code. -/
def readRegisters (h : Header) (fc : Byte) (a q : Word) (s : State) : Host.Outcome State Fault Refusal :=
  if q = 0 then .next (s.raise h fc .quantityMismatch)
  else if validRange s.n a q.toNat then
    .next (s.emit (frameBytes s.params h fc
      (BitVec.ofNat 8 (2 * q.toNat) :: wordsToBytes (s.readWords (slot a) q.toNat))))
  else .next (s.raise h fc .addressOutOfRange)

/-- READ_HOLDING_REGISTERS, FC 0x03 (R222). -/
def execReadHoldingRegisters (h : Header) (a q : Word) (s : State) : Host.Outcome State Fault Refusal :=
  readRegisters h 0x03 a q s

/-- READ_HOLDING_REGISTERS_04, FC 0x04: the same operation on the same store (R97, R223). -/
def execReadHoldingRegisters04 (h : Header) (a q : Word) (s : State) : Host.Outcome State Fault Refusal :=
  readRegisters h 0x04 a q s

/-- WRITE_SINGLE_REGISTER, FC 0x06 (R224): store one word and echo address and value. -/
def execWriteSingleRegister (h : Header) (a v : Word) (s : State) : Host.Outcome State Fault Refusal :=
  if valid16 s.n a then
    .next ((s.writeWord (slot a) v).emit (frameBytes s.params h 0x06 (wordBytes a ++ wordBytes v)))
  else .next (s.raise h 0x06 .addressOutOfRange)

/-- WRITE_MULTIPLE_REGISTERS, FC 0x10 (R225): store `q` words and echo address and quantity. The byte count is compared
with `2 * q` as unbounded integers (R228). -/
def execWriteMultipleRegisters (h : Header) (a q : Word) (bc : Byte) (data : List Byte) (s : State) :
    Host.Outcome State Fault Refusal :=
  if q = 0 then .next (s.raise h 0x10 .quantityMismatch)
  else if bc.toNat ≠ 2 * q.toNat then .next (s.raise h 0x10 .quantityMismatch)
  else if validRange s.n a q.toNat then
    .next ((s.writeWords (slot a) (dataWords data q.toNat)).emit
      (frameBytes s.params h 0x10 (wordBytes a ++ wordBytes q)))
  else .next (s.raise h 0x10 .addressOutOfRange)

/-- ILLEGAL_FUNCTION (R226): unconditionally the IllegalFunction exception; the payload is not read. -/
def execIllegalFunction (h : Header) (fc : Byte) (s : State) : Host.Outcome State Fault Refusal :=
  .next (s.raise h fc .unsupportedFunction)

end Sys2Proof.Machine
end

