-- ==== Sys2Proof/Machine/Dispatch.lean ====
section
/-!
DEFINITION. Dispatch: one arm for each instruction (R96, R101, R221).
-/

namespace Sys2Proof.Machine

def exec (i : Instr) (s : State) : Host.Outcome State Fault Refusal :=
  match i with
  | .readHoldingRegisters h a q => Sys2Proof.Machine.execReadHoldingRegisters h a q s
  | .readHoldingRegisters04 h a q => Sys2Proof.Machine.execReadHoldingRegisters04 h a q s
  | .writeSingleRegister h a v => Sys2Proof.Machine.execWriteSingleRegister h a v s
  | .writeMultipleRegisters h a q bc data => Sys2Proof.Machine.execWriteMultipleRegisters h a q bc data s
  | .illegalFunction h fc _ => Sys2Proof.Machine.execIllegalFunction h fc s
  | .getU16 a => Sys2Proof.Machine.execGetU16 a s
  | .setU16 a wdata => Sys2Proof.Machine.execSetU16 a wdata s
  | .getU32 a => Sys2Proof.Machine.execGetU32 a s
  | .setU32 a wdata => Sys2Proof.Machine.execSetU32 a wdata s
  | .getFloat a => Sys2Proof.Machine.execGetFloat a s
  | .setFloat a wdata => Sys2Proof.Machine.execSetFloat a wdata s
  | .hostReserved r _ _ => Sys2Proof.Machine.execHostReserved r s

end Sys2Proof.Machine
end

