-- ==== Sys2Proof/Machine/Ports.lean ====
section
/-!
DEFINITION. The two ports: what comes in from outside between steps (R38, R40), which port's next operation is taken
(R75, R76), how it is accepted and run (R73, R220), and a reset in mid-run (R321).
-/

namespace Sys2Proof.Machine

/-! ### Inputs from outside, between steps -/

/-- The transport delivers a frame, behind those it delivered before (R35, R38). -/
def State.deliver (s : State) (b : List Byte) : State := { s with frames := s.frames ++ [b] }

/-- The host issues an operation; while others are pending it waits (R35, R40). -/
def State.issue (s : State) (o : HostOp) : State := { s with hostOps := s.hostOps ++ [o] }

/-- A reset at any moment (R320 to R323): the parameters stay, the store is INIT_STORE again, nothing is owed.
DESIGN CHOICE, logs 3 and 13: the spec does not say how the interleaving after a reset is related to the one before.
Here it is not related at all: a burst length that was never used before is drawn, and `draws` counts on. -/
def State.resetAgain (s : State) (init : Nat → Word) : State :=
  { State.resetWith s.params s.n init with credit := Config.burst s.draws, draws := s.draws + 1 }

/-! ### Taking the next operation -/

/-- The other port. -/
def Port.other : Port → Port
  | .protocol => .host
  | .host => .protocol

/-- The port that a grant goes to while both ports have an operation pending (R75 item 3, R76; log 3): the port whose
turn it is while it has credit, else the other. -/
def State.favoured (s : State) : Port := if s.credit = 0 then s.turn.other else s.turn

/-- A fresh burst length: how many contested grants `turn` gets before the other port's next one. -/
def State.drawBurst (s : State) : State := { s with credit := Config.burst s.draws, draws := s.draws + 1 }

/-- The arbiter after a contested grant: one credit spent, or the turn passed on with a fresh burst length drawn. A
burst is finite, so a pending operation is always served (R76). -/
def State.chargeGrant (s : State) : State :=
  if s.credit = 0 then { s.drawBurst with turn := s.turn.other } else { s with credit := s.credit - 1 }

/-- The arbiter after a grant to `p` that the other port did not contest. If `p` is not the port whose turn it is, it
has been served without winning a contest, and a fresh burst length is drawn: so one port may win every contest for
ever while the other is served between contests, which R76 allows (log 3). -/
def State.chargeLone (s : State) (p : Port) : State := if s.turn = p then s else s.drawBurst

/-- The next operation, taken from its port: the one in progress if there is one (R39), else the oldest one of the port
that has one pending, else, where both have, of the port the arbiter favours. None when nothing is pending. -/
def State.select (s : State) : Option (Transaction × State) :=
  match s.inFlight with
  | some t => some (t, s)
  | none =>
    match s.frames, s.hostOps with
    | [], [] => none
    | b :: bs, [] => some (.frame b, { s.chargeLone .protocol with frames := bs })
    | [], o :: os => some (.hostOp o, { s.chargeLone .host with hostOps := os })
    | b :: bs, o :: os =>
      match s.favoured with
      | .protocol => some (.frame b, { s.chargeGrant with frames := bs })
      | .host => some (.hostOp o, { s.chargeGrant with hostOps := os })

/-- A port accepts an operation: it is busy until the outcome or result (R38, R40, R42). -/
def State.accept (s : State) (t : Transaction) : State := { s with inFlight := some t }

/-- One whole transaction (R73, R220): a malformed frame is dropped, an instruction is accepted and run. -/
def runTransaction (t : Transaction) (s : State) : Host.Outcome State Fault Refusal :=
  match decode s.params t with
  | .error _ => .next s.drop
  | .ok i => exec i (s.accept t)

/-- Putting an operation where the next step takes it: at the head of its port's queue, with the other transaction out
of the way and the arbiter's favour on that port (log 8). -/
def State.placeNext (s : State) (t : Transaction) : State :=
  match t with
  | .frame b =>
    { s with frames := b :: s.frames, inFlight := none, turn := .protocol, credit := s.credit + 1 }
  | .hostOp o =>
    { s with hostOps := o :: s.hostOps, inFlight := none, turn := .host, credit := s.credit + 1 }

end Sys2Proof.Machine
end

