-- ==== Sys2Proof/Machine/Step.lean ====
section
/-!
DEFINITION. One step of the core: one whole transaction of one port (R42, R73). When no operation is pending the core
waits, with everything as it is (R294).
-/

namespace Sys2Proof.Machine

/-- The step. -/
def step (s : State) : Host.Outcome State Fault Refusal :=
  match s.select with
  | none => .next s
  | some (t, s') => runTransaction t s'

/-- `s` with the operation of an opcode-table word as the very next one a step takes (log 8). -/
def State.withFetchWord (s : State) (nbits w : Nat) : State :=
  s.placeNext (tableTransaction s.params nbits w)

end Sys2Proof.Machine
end

