-- ==== Sys2Proof/Machine/Flags.lean ====
section
/-!
DEFINITION. The core has no status flag and no condition code (R34), and no operation sets one. The one flag-like
signal is the host port's `err` bit: the result of a host operation on its wires is `(err, rdata[31:0])` (R101).
-/

namespace Sys2Proof.Machine

/-- `err` (R101): set exactly when the operation failed. -/
def HostResult.errBit : HostResult → Bool
  | .ok16 _ => false
  | .ok32 _ => false
  | .ok => false
  | .err _ => true

/-- `rdata` (R101): defined only when `err` is 0 and the operation is a get, and then 32 bits wide, a 16-bit value with
zeros above it. On an error there is none, never a zero (R40). -/
def HostResult.rdata : HostResult → Option DWord
  | .ok16 v => some (v.setWidth 32)
  | .ok32 v => some v
  | .ok => none
  | .err _ => none

end Sys2Proof.Machine
end

