-- ==== Sys2Proof/WellFormed.lean ====
section
/-!
DEFINITION. Which instructions a port can carry. A protocol instruction is well-formed when its frame fits the inbound
buffer (R182), its length field fits 16 bits (R90, R92), its byte count counts its data (R93, R186) and its function
code is the one its row stands for (R96). Every host operation is well-formed: its fields have fixed widths (R101).
-/

namespace Sys2Proof

/-- A frame with P payload bytes fits the inbound buffer, `8 + P ≤ MAX_ADU` (R182). -/
abbrev Params.fitsBuffer (p : Params) (payloadBytes : Nat) : Prop := 8 + payloadBytes ≤ p.maxAdu

/-- The length field of a frame with P payload bytes is a 16-bit number (R90). -/
abbrev Params.fitsLengthField (p : Params) (payloadBytes : Nat) : Prop := lenOf p payloadBytes < 65536

/-- The instruction can stand on its port. -/
def Instr.wellFormed (p : Params) : Instr → Bool
  | .readHoldingRegisters _ _ _ => p.fitsBuffer 4
  | .readHoldingRegisters04 _ _ _ => p.fitsBuffer 4
  | .writeSingleRegister _ _ _ => p.fitsBuffer 4
  | .writeMultipleRegisters _ _ _ bc data => data.length = bc.toNat ∧ p.fitsBuffer (5 + bc.toNat)
  | .illegalFunction _ fc payload =>
      fc ∉ supportedFunctions ∧ p.fitsBuffer payload.length ∧ p.fitsLengthField payload.length
  | .getU16 _ => true
  | .setU16 _ _ => true
  | .getU32 _ => true
  | .setU32 _ _ => true
  | .getFloat _ => true
  | .setFloat _ _ => true
  | .hostReserved _ _ _ => true

end Sys2Proof
end

