-- ==== Sys2Proof/Safety.lean ====
section
/-!
DEFINITION. The terms the claims use: a legal build (R8), a state between transactions (R42), a response a client can
take apart (R95, R190), the invariant of the core, what comes in from outside, the states a run can reach, and the end
and the observation of a run (R331).
-/

namespace Sys2Proof.Machine

/-- The build's parameters are legal (R8). -/
abbrev State.LegalBuild (s : State) : Prop := Config.LegalSize s.n ∧ s.params.Legal

/-- Both port sequencers are idle and the buffers are empty, as in every state between atomic steps (R42). -/
abbrev State.Idle (s : State) : Prop := s.inFlight = none ∧ s.outbound = []

/-- What the payload of a response is, by its function code (R95, R99): after a read a byte count and that many data
bytes, after a write four echoed bytes, after an exception one code byte, which is 1, 2 or 3 (R289). -/
def ResponsePayload (fc : Byte) (payload : List Byte) : Prop :=
  ((fc = 0x03 ∨ fc = 0x04) ∧ ∃ bc data, payload = bc :: data ∧ data.length = bc.toNat) ∨
    ((fc = 0x06 ∨ fc = 0x10) ∧ payload.length = 4) ∨
    (0x80 ≤ fc ∧ (payload = [1] ∨ payload = [2] ∨ payload = [3]))

/-- A response as the core emits it: no longer than the largest read response or write echo (R189; log 11), with a
header that decodeADU accepts (R190), and with one of the payloads of R95. -/
def ResponseOk (p : Params) (n : Nat) (bytes : List Byte) : Prop :=
  bytes.length ≤ max 12 (9 + 2 * n) ∧
    ∃ fr, decodeADU { p with maxAdu := max 12 (9 + 2 * n) } bytes = .ok fr ∧
      ResponsePayload fr.fc fr.payload

/-- The invariant of the core: a legal build, idle ports, and only well-framed responses among the outcomes. -/
structure State.Inv (s : State) : Prop where
  legal     : s.LegalBuild
  idle      : s.Idle
  responses : ∀ bytes, .response bytes ∈ s.outcomes → ResponseOk s.params s.n bytes

/-- One input from outside, between two steps: the transport delivers a frame, or the host issues an operation. -/
def State.offer (s : State) : Transaction → State
  | .frame b => s.deliver b
  | .hostOp o => s.issue o

/-- Several inputs, in the order they come. -/
def State.offerAll (s : State) (ts : List Transaction) : State := ts.foldl State.offer s

/-- Every state of every run of a legal build: from reset, by steps, inputs from outside and resets in any order. -/
inductive Reachable : State → Prop
  | reset (p : Params) (n : Nat) (init : Nat → Word) (size : Config.LegalSize n) (legal : p.Legal) :
      Reachable (State.resetWith p n init)
  | offer (s : State) (t : Transaction) (h : Reachable s) : Reachable (s.offer t)
  | resetAgain (s : State) (init : Nat → Word) (h : Reachable s) : Reachable (s.resetAgain init)
  | step (s t : State) (h : Reachable s) (next : step s = .next t) : Reachable t

/-- The outcome is one of this frame: DROPPED exactly when the frame is malformed (R287), else a response with the
frame's own TID, UID and, but for bit 7, function code (R95, R185). -/
def OutcomeOf (p : Params) (b : List Byte) (o : ProtocolOutcome) : Prop :=
  match decodeFrame p b with
  | .error _ => o = .dropped
  | .ok _ => ∃ bytes, o = .response bytes ∧ bytes.getD 0 0 = b.getD 0 0 ∧ bytes.getD 1 0 = b.getD 1 0 ∧
      bytes.getD 6 0 = b.getD 6 0 ∧ (bytes.getD 7 0 = b.getD 7 0 ∨ bytes.getD 7 0 = b.getD 7 0 ||| 0x80)

/-- The result is one of this host operation: an error, or a value of the width its op field asks for (R40, R101). -/
def ResultOf (o : HostOp) (r : HostResult) : Prop :=
  o.op < 6 ∧
    (r = .err .addressOutOfRange ∨
      (o.op = 0b000 ∧ ∃ v, r = .ok16 v) ∨
      ((o.op = 0b010 ∨ o.op = 0b100) ∧ ∃ v, r = .ok32 v) ∨
      ((o.op = 0b001 ∨ o.op = 0b011 ∨ o.op = 0b101) ∧ r = .ok))

/-- `k` steps, stopping at the first fault or refusal. -/
def run : Nat → State → Host.Outcome State Fault Refusal
  | 0, s => .next s
  | k + 1, s =>
    match step s with
    | .next s' => run k s'
    | .fault r => .fault r
    | .refused r => .refused r

/-- No pending host operation has a reserved code, as R148 asks of the host: what makes a run safe from a refusal. -/
def State.HostObeys (s : State) : Prop := ∀ o ∈ s.hostOps, o.op < 6

/-- The end of a run (R331): both ports idle, every frame has its outcome and every host operation its result. -/
abbrev State.Finished (s : State) : Prop := s.inFlight = none ∧ s.frames = [] ∧ s.hostOps = []

/-- The final observation of a run (R331): the outcomes, the host results and the store. -/
def State.observation (s : State) : List ProtocolOutcome × List HostResult × List Word :=
  (s.outcomes, s.results, s.store)

/-! ### Words the claims share -/

/-- `s` after a protocol transaction that wrote no store word and answered `bytes`: one more outcome, and the port
idle with its buffers empty. Everything else is as it was. -/
def State.answered (s : State) (bytes : List Byte) : State :=
  { s with outcomes := s.outcomes ++ [.response bytes], inFlight := none, outbound := [] }

/-- `s` after a host operation that wrote no store word and returned `r`: one more result, and the port idle.
Everything else is as it was. -/
def State.returned (s : State) (r : HostResult) : State :=
  { s with results := s.results ++ [r], inFlight := none }

/-- The nine bytes of an exception response, written out (R188, R283): the opaque bytes echoed, protocol id 0, the length
field of a one-byte payload, the function code with bit 7 set, and the code. -/
def exceptionFrame (p : Params) (h : Header) (fc code : Byte) : List Byte :=
  [h.tid0, h.tid1, 0, 0, 0, BitVec.ofNat 8 (lenOf p 1), h.uid, fc ||| 0x80, code]

/-- The twelve bytes of a frame with two 16-bit fields, written out: RQ_READ and RQ_WRITE1 requests (R93), and the
RS_WRITE1 and RS_WRITEN responses (R95). -/
def twoWordFrame (p : Params) (h : Header) (fc : Byte) (x y : Word) : List Byte :=
  [h.tid0, h.tid1, 0, 0, 0, BitVec.ofNat 8 (lenOf p 4), h.uid, fc, hi8 x, lo8 x, hi8 y, lo8 y]

end Sys2Proof.Machine

namespace Sys2Proof

open Sys2Proof.Machine

/-- The frame of an operation of the protocol port. -/
def Transaction.frame? : Transaction → Option (List Byte)
  | .frame b => some b
  | .hostOp _ => none

/-- The operation of the host port. -/
def Transaction.hostOp? : Transaction → Option HostOp
  | .frame _ => none
  | .hostOp o => some o

/-- The store words an instruction may write, as the first index and a count (R31). -/
def Instr.written : Instr → Nat × Nat
  | .readHoldingRegisters _ _ _ => (0, 0)
  | .readHoldingRegisters04 _ _ _ => (0, 0)
  | .writeSingleRegister _ a _ => (slot a, 1)
  | .writeMultipleRegisters _ a q _ _ => (slot a, q.toNat)
  | .illegalFunction _ _ _ => (0, 0)
  | .getU16 _ => (0, 0)
  | .setU16 a _ => (slot a, 1)
  | .getU32 _ => (0, 0)
  | .setU32 a _ => (slot a, 2)
  | .getFloat _ => (0, 0)
  | .setFloat a _ => (slot a, 2)
  | .hostReserved _ _ _ => (0, 0)

/-- The opaque bytes of a protocol instruction; a host operation has none. -/
def Instr.header? : Instr → Option Header
  | .readHoldingRegisters h _ _ => some h
  | .readHoldingRegisters04 h _ _ => some h
  | .writeSingleRegister h _ _ => some h
  | .writeMultipleRegisters h _ _ _ _ => some h
  | .illegalFunction h _ _ => some h
  | .getU16 _ => none
  | .setU16 _ _ => none
  | .getU32 _ => none
  | .setU32 _ _ => none
  | .getFloat _ => none
  | .setFloat _ _ => none
  | .hostReserved _ _ _ => none

/-- The same instruction with other opaque bytes. -/
def Instr.withHeader (h : Header) : Instr → Instr
  | .readHoldingRegisters _ a q => .readHoldingRegisters h a q
  | .readHoldingRegisters04 _ a q => .readHoldingRegisters04 h a q
  | .writeSingleRegister _ a v => .writeSingleRegister h a v
  | .writeMultipleRegisters _ a q bc data => .writeMultipleRegisters h a q bc data
  | .illegalFunction _ fc payload => .illegalFunction h fc payload
  | .getU16 a => .getU16 a
  | .setU16 a w => .setU16 a w
  | .getU32 a => .getU32 a
  | .setU32 a w => .setU32 a w
  | .getFloat a => .getFloat a
  | .setFloat a w => .setFloat a w
  | .hostReserved r a w => .hostReserved r a w

end Sys2Proof
end

