-- ==== Sys2Proof/Certificates/Slice0/Obligations.lean ====
section
/-!
DEFINITION. The statements for the provers, each formalising or derived from rules of spec/ (OBLIGATIONS.json says
which). A host operation's or a frame's effect is written out as the whole next state, so each such statement is a
result, a frame and a completion at once: `State.answered` and `State.returned` change the outcome or result and the
port, and nothing else; where words are written, the store is given beside them.
-/

open Sys2Proof Sys2Proof.Machine

/-! ### Reset -/

/-- R321, R320, U2: after a reset, the first or one at any moment of a run and whatever was in flight, waiting or stored
then, both ports are idle, the buffers are empty, nothing is pending or owed, and the store is INIT_STORE anew. -/
def Obligations.ResetLeavesPortsIdle : Prop :=
  ∀ (s t : State) (p : Params) (n : Nat) (init : Nat → Word),
    (t = State.resetWith p n init ∨ t = s.resetAgain init ∧ n = s.n) →
      t.inFlight = none ∧ t.outbound = [] ∧ t.frames = [] ∧ t.hostOps = [] ∧ t.n = n ∧
        ∀ i, i < n → t.readWord i = init i

/-- R320: after reset `store[i]` is INIT_STORE(i), and a read of it, on either port, is a normal read that returns it.
For every legal build and every INIT_STORE. -/
def Obligations.ReadAfterResetReturnsInitStore : Prop :=
  ∀ (p : Params) (n : Nat) (init : Nat → Word) (h : Header) (a : Word),
    Config.LegalSize n → p.Legal → 40001 ≤ a.toNat → a.toNat ≤ 40000 + n →
      (State.resetWith p n init).readWord (a.toNat - 40001) = init (a.toNat - 40001) ∧
      exec (.getU16 a) (State.resetWith p n init) =
        .next ((State.resetWith p n init).returned (.ok16 (init (a.toNat - 40001)))) ∧
      exec (.readHoldingRegisters h a 1) (State.resetWith p n init) =
        .next ((State.resetWith p n init).answered
          [h.tid0, h.tid1, 0, 0, 0, BitVec.ofNat 8 (lenOf p 3), h.uid, 0x03, 2,
            hi8 (init (a.toNat - 40001)), lo8 (init (a.toNat - 40001))])

/-- R8's values for this hardware: N = 32, AFTER_UNIT_ID, MAX_ADU = 260, and the store at INIT_STORE, whatever that is
(log 2). That the two histories start empty is the model's choice (log 6). -/
def Obligations.ResetOfThisHardware : Prop :=
  State.reset.n = 32 ∧ State.reset.params = { lenMode := .afterUnitId, maxAdu := 260 } ∧
    (∀ i, i < 32 → State.reset.readWord i = Config.initStore i) ∧
    State.reset.outcomes = [] ∧ State.reset.results = []

/-- Reset meets the invariant, for every legal build and every INIT_STORE. -/
def Obligations.ResetMeetsInvariant : Prop :=
  ∀ (p : Params) (n : Nat) (init : Nat → Word),
    Config.LegalSize n → p.Legal → (State.resetWith p n init).Inv

/-- R323: a reset, at any moment of a run (log 13), does not change N, LEN_MODE and MAX_ADU; nor does any step (R36). -/
def Obligations.BuildParametersNeverChange : Prop :=
  ∀ (s : State) (init : Nat → Word),
    ((s.resetAgain init).params = s.params ∧ (s.resetAgain init).n = s.n) ∧
      ∀ t, step s = .next t → t.params = s.params ∧ t.n = s.n

/-! ### The invariant and the step -/

/-- Every step keeps the invariant: a legal build, both ports idle with empty buffers (R42), and every response among
the outcomes short enough (R189, log 11), accepted by decodeADU (R190), and of a kind R95 lists, exceptions with code
1, 2 or 3 only (R289). -/
def Obligations.StepKeepsInvariant : Prop :=
  ∀ s t, State.Inv s → step s = .next t → State.Inv t

/-- A frame whose turn it is and which decodes is run: the step is exec of the decoded instruction, with the frame
taken from its queue and latched, and the arbiter charged for the grant (logs 3, 5). -/
def Obligations.StepRunsDecodedFrame : Prop :=
  ∀ (s : State) (b : List Byte) (bs : List (List Byte)) (i : Instr),
    s.inFlight = none → s.frames = b :: bs → decodeFrame s.params b = .ok i →
      (s.hostOps = [] →
        step s = exec i { s.chargeLone .protocol with frames := bs, inFlight := some (.frame b) }) ∧
      (s.hostOps ≠ [] → s.favoured = .protocol →
        step s = exec i { s.chargeGrant with frames := bs, inFlight := some (.frame b) })

/-- A host operation whose turn it is is run: the step is exec of the operation its op field selects, with the operation
taken from its queue and latched, and the arbiter charged for the grant (logs 3, 5). -/
def Obligations.StepRunsDecodedHostOp : Prop :=
  ∀ (s : State) (o : HostOp) (os : List HostOp),
    s.inFlight = none → s.hostOps = o :: os →
      (s.frames = [] →
        step s = exec (decodeHostOp o) { s.chargeLone .host with hostOps := os, inFlight := some (.hostOp o) }) ∧
      (s.frames ≠ [] → s.favoured = .host →
        step s = exec (decodeHostOp o) { s.chargeGrant with hostOps := os, inFlight := some (.hostOp o) })

/-- A malformed frame is dropped: no byte, no store word, no host result, and the port serves the next frame (R287). The
arbiter's charge is the model's own (log 3). -/
def Obligations.MalformedFrameIsDropped : Prop :=
  ∀ (s : State) (b : List Byte) (bs : List (List Byte)) (e : Malformed),
    s.inFlight = none → s.outbound = [] → s.frames = b :: bs → decodeFrame s.params b = .error e →
      (s.hostOps = [] → step s = .next { s.chargeLone .protocol with frames := bs, outcomes := s.outcomes ++ [.dropped] }) ∧
      (s.hostOps ≠ [] → s.favoured = .protocol →
        step s = .next { s.chargeGrant with frames := bs, outcomes := s.outcomes ++ [.dropped] })

/-- R75 items 1 and 2, R35: what comes in from outside between steps joins the end of its port's queue, in the order it
comes, and changes nothing else (the queues are the model's own, log 4). -/
def Obligations.InputsJoinTheQueuesInOrder : Prop :=
  ∀ (s : State) (ts : List Transaction),
    s.offerAll ts =
      { s with frames := s.frames ++ ts.filterMap Transaction.frame?
               hostOps := s.hostOps ++ ts.filterMap Transaction.hostOp? }

/-- With nothing pending the core waits, with everything as it is (R294). That this is a step is the model's choice
(log 7). -/
def Obligations.IdleCoreWaits : Prop :=
  ∀ s, State.Finished s → step s = .next s

/-- R38, R39, R75: a step from an idle core with something pending takes exactly the oldest operation of one port and
gives exactly one outcome or one result there; the other port's queue and sequence are untouched (the queues and
sequences are the model's own, logs 4 and 6). -/
def Obligations.StepAnswersExactlyOneOperation : Prop :=
  ∀ s t, s.inFlight = none → step s = .next t → ¬ State.Finished s →
    t.inFlight = none ∧
    ((∃ b o, s.frames = b :: t.frames ∧ t.outcomes = s.outcomes ++ [o] ∧
        t.hostOps = s.hostOps ∧ t.results = s.results) ∨
      (∃ op r, s.hostOps = op :: t.hostOps ∧ t.results = s.results ++ [r] ∧
        t.frames = s.frames ∧ t.outcomes = s.outcomes))

/-- R231: whatever bytes the transport delivers, the transaction ends in exactly one outcome, a response or DROPPED,
with the port idle; it never faults and is never refused. Whose turn it is, is the arbiter's (log 3). -/
def Obligations.EveryFrameGetsAnOutcome : Prop :=
  ∀ (s : State) (b : List Byte) (bs : List (List Byte)),
    s.inFlight = none → s.frames = b :: bs → (s.hostOps = [] ∨ s.favoured = .protocol) →
      ∃ t o, step s = .next t ∧ t.frames = bs ∧ t.outcomes = s.outcomes ++ [o] ∧ t.inFlight = none ∧
        t.outbound = []

/-- R231, R289: no step faults; and a step is refused only for a host operation with a reserved code (R148). -/
def Obligations.OnlyReservedHostOpsStop : Prop :=
  ∀ s, (∀ f, step s ≠ .fault f) ∧
    ∀ r, step s = .refused r →
      ∃ o : HostOp, r = .reservedHostOp o.op ∧ (o.op = 6 ∨ o.op = 7) ∧
        (s.inFlight = some (.hostOp o) ∨ (s.inFlight = none ∧ ∃ os, s.hostOps = o :: os))

/-- What the host places for an opcode-table word is what the very next step runs, from any state (log 8). -/
def Obligations.PlacedWordRunsNext : Prop :=
  ∀ (s : State) (nbits w : Nat) (i : Instr),
    decode s.params (tableTransaction s.params nbits w) = .ok i →
      ∃ s', step (s.withFetchWord nbits w) = exec i s' ∧ s'.params = s.params ∧ s'.store = s.store ∧
        s'.outcomes = s.outcomes ∧ s'.results = s.results ∧ s'.frames = s.frames ∧ s'.hostOps = s.hostOps

/-! ### Arbitration and runs -/

/-- R75 item 3: while both ports have an operation pending, either may be served next; the model's arbiter (log 3)
shows both, by its own fields alone. -/
def Obligations.EitherPortMayBeServedNext : Prop :=
  ∀ (s : State) (b : List Byte) (bs : List (List Byte)) (o : HostOp) (os : List HostOp),
    s.inFlight = none → s.frames = b :: bs → s.hostOps = o :: os →
      step { s with turn := .protocol, credit := 1 } =
        runTransaction (.frame b) { s with turn := .protocol, credit := 0, frames := bs } ∧
      step { s with turn := .host, credit := 1 } =
        runTransaction (.hostOp o) { s with turn := .host, credit := 0, hostOps := os }

/-- R76: a pending frame is never starved, whatever the burst lengths are, provided the host issues no reserved code
(R148). The bound, the credit left and one more burst and two steps, is that of the model's arbiter and not the spec's,
which gives none (log 3). -/
def Obligations.PendingFrameIsServed : Prop :=
  ∀ (s : State) (b : List Byte) (bs : List (List Byte)),
    s.inFlight = none → s.HostObeys → s.frames = b :: bs →
      ∃ k t, k ≤ s.credit + Config.burst s.draws + 2 ∧ run k s = .next t ∧
        t.frames = bs ∧ ∃ o, t.outcomes = s.outcomes ++ [o]

/-- R76: a pending host operation is never starved, whatever the burst lengths are, provided the host issues no reserved
code (R148). The bound, the credit left and one more burst and two steps, is that of the model's arbiter and not the
spec's, which gives none (log 3). -/
def Obligations.PendingHostOpIsServed : Prop :=
  ∀ (s : State) (o : HostOp) (os : List HostOp),
    s.inFlight = none → s.HostObeys → s.hostOps = o :: os →
      ∃ k t, k ≤ s.credit + Config.burst s.draws + 2 ∧ run k s = .next t ∧
        t.hostOps = os ∧ ∃ r, t.results = s.results ++ [r]

/-- R331: a run ends. As many steps as operations are pending bring the core to the end of the run, with one outcome
for every frame and one result for every host operation, in whatever order the ports were served (logs 3, 4, 6). -/
def Obligations.RunEndsWithEveryAnswer : Prop :=
  ∀ s : State, s.inFlight = none → s.HostObeys →
    ∃ t, run (s.frames.length + s.hostOps.length) s = .next t ∧ State.Finished t ∧
      (∃ os, t.outcomes = s.outcomes ++ os ∧ os.length = s.frames.length) ∧
      (∃ rs, t.results = s.results ++ rs ∧ rs.length = s.hostOps.length)

/-! ### Encoding -/

/-- R101: the op field selects the operation, all eight codes, with the address and, where it is read, wdata. -/
def Obligations.HostOpFieldSelectsOperation : Prop :=
  ∀ (a : Word) (w : DWord),
    decodeHostOp { op := 0b000, addr := a, wdata := w } = .getU16 a ∧
    decodeHostOp { op := 0b001, addr := a, wdata := w } = .setU16 a w ∧
    decodeHostOp { op := 0b010, addr := a, wdata := w } = .getU32 a ∧
    decodeHostOp { op := 0b011, addr := a, wdata := w } = .setU32 a w ∧
    decodeHostOp { op := 0b100, addr := a, wdata := w } = .getFloat a ∧
    decodeHostOp { op := 0b101, addr := a, wdata := w } = .setFloat a w ∧
    decodeHostOp { op := 0b110, addr := a, wdata := w } = .hostReserved false a w ∧
    decodeHostOp { op := 0b111, addr := a, wdata := w } = .hostReserved true a w

/-- Decode and encode agree: every well-formed instruction, with every operand at every value its encoding admits, is
decoded from what it is encoded as, in either LEN_MODE and for every MAX_ADU. -/
def Obligations.DecodeOfEncode : Prop :=
  ∀ (p : Params) (i : Instr), i.wellFormed p = true → decode p (encode p i) = .ok i

/-- Every frame has one meaning: a frame that decodes is the encoding of what it decodes to, and that is well-formed. -/
def Obligations.EncodeOfDecodedFrame : Prop :=
  ∀ (p : Params) (b : List Byte) (i : Instr), decodeFrame p b = .ok i →
    encode p i = .frame b ∧ i.wellFormed p = true

/-- R180 to R184: decodeADU accepts exactly the frames of 8 to MAX_ADU bytes whose protocol id is 0 and whose length
field is `lenOf(F - 8)`, and returns their fields. -/
def Obligations.DecodeADUAcceptsExactly : Prop :=
  ∀ (p : Params) (b : List Byte) (fr : Frame),
    decodeADU p b = .ok fr ↔
      8 ≤ b.length ∧ b.length ≤ p.maxAdu ∧ b.getD 2 0 = 0 ∧ b.getD 3 0 = 0 ∧
        (b.getD 4 0).toNat * 256 + (b.getD 5 0).toNat = lenOf p (b.length - 8) ∧
        fr = { hdr := { tid0 := b.getD 0 0, tid1 := b.getD 1 0, uid := b.getD 6 0 }, fc := b.getD 7 0,
               payload := b.drop 8 }

/-- R186: parsePDU drops exactly the frames of FC 0x03, 0x04 and 0x06 whose payload is not 4 bytes, and those of
FC 0x10 whose payload is shorter than 5 bytes or not `5 + bc`. -/
def Obligations.ParsePDUDropsExactly : Prop :=
  ∀ fr : Frame,
    (∃ e, parsePDU fr = .error e) ↔
      (fr.fc = 0x03 ∨ fr.fc = 0x04 ∨ fr.fc = 0x06) ∧ fr.payload.length ≠ 4 ∨
        fr.fc = 0x10 ∧ (fr.payload.length < 5 ∨ fr.payload.length ≠ 5 + (fr.payload.getD 4 0).toNat)

/-- Words written out from the spec's encodings decode to the instructions they stand for, and frames that 95 L2.1 lists
as malformed (X1, X2, X4, X10, X12) are rejected. -/
def Obligations.WrittenOutWordsDecode : Prop :=
  decodeFrame Config.params [0x00, 0x03, 0x00, 0x00, 0x00, 0x05, 0x01, 0x03, 0x9C, 0x41, 0x00, 0x02] =
      .ok (.readHoldingRegisters { tid0 := 0, tid1 := 3, uid := 1 } 40001 2) ∧
  decodeFrame Config.params [0x00, 0x01, 0x00, 0x00, 0x00, 0x05, 0x01, 0x06, 0x9C, 0x41, 0x04, 0xD2] =
      .ok (.writeSingleRegister { tid0 := 0, tid1 := 1, uid := 1 } 40001 1234) ∧
  decodeFrame Config.params
      [0x00, 0x02, 0x00, 0x00, 0x00, 0x0A, 0x01, 0x10, 0x9C, 0x41, 0x00, 0x02, 0x04, 0x00, 0x20, 0xF1, 0x47] =
      .ok (.writeMultipleRegisters { tid0 := 0, tid1 := 2, uid := 1 } 40001 2 4 [0x00, 0x20, 0xF1, 0x47]) ∧
  decodeFrame Config.params [0x00, 0x01, 0x00, 0x00, 0x00, 0x01, 0x01] = .error .tooShort ∧
  decodeFrame Config.params [0x00, 0x01, 0x00, 0x01, 0x00, 0x05, 0x01, 0x03, 0x9C, 0x41, 0x00, 0x01] =
      .error .protocolId ∧
  decodeFrame Config.params [0x00, 0x01, 0x00, 0x00, 0x00, 0x06, 0x01, 0x03, 0x9C, 0x41, 0x00, 0x01] =
      .error .lengthField ∧
  decodeFrame Config.params [0x00, 0x01, 0x00, 0x00, 0x00, 0x06, 0x01, 0x03, 0x9C, 0x41, 0x00, 0x01, 0x00] =
      .error .payloadLength ∧
  decodeFrame Config.params [0x00, 0x01, 0x00, 0x00, 0x00, 0x05, 0x01, 0x10, 0x9C, 0x41, 0x00, 0x01] =
      .error .payloadLength

/-- R102: what the symbolic requests expand to: TID high byte first, protocol id 0, the length field in the build's
LEN_MODE, UID, the function code, and the payload fields high byte first. WRMR of any number of words, with the byte
count written out or left to default to twice that number, in the 8 bits of its field: exact up to 127 words
(log 16). -/
def Obligations.SymbolicRequestsExpand : Prop :=
  ∀ (p : Params) (tid : Word) (uid : Byte) (a x : Word) (words : List Word) (bc fc : Byte) (payload : List Byte),
    encode p (rdhr tid uid a x) =
      .frame [hi8 tid, lo8 tid, 0, 0, 0, BitVec.ofNat 8 (lenOf p 4), uid, 0x03, hi8 a, lo8 a, hi8 x, lo8 x] ∧
    encode p (rdhr4 tid uid a x) =
      .frame [hi8 tid, lo8 tid, 0, 0, 0, BitVec.ofNat 8 (lenOf p 4), uid, 0x04, hi8 a, lo8 a, hi8 x, lo8 x] ∧
    encode p (wrsr tid uid a x) =
      .frame [hi8 tid, lo8 tid, 0, 0, 0, BitVec.ofNat 8 (lenOf p 4), uid, 0x06, hi8 a, lo8 a, hi8 x, lo8 x] ∧
    encode p (wrmrCounted tid uid a x bc words) =
      .frame ([hi8 tid, lo8 tid, 0, 0, hi8 (BitVec.ofNat 16 (lenOf p (5 + 2 * words.length))),
        lo8 (BitVec.ofNat 16 (lenOf p (5 + 2 * words.length))), uid, 0x10, hi8 a, lo8 a, hi8 x, lo8 x, bc] ++
          words.flatMap fun w => [hi8 w, lo8 w]) ∧
    encode p (wrmr tid uid a x words) =
      .frame ([hi8 tid, lo8 tid, 0, 0, hi8 (BitVec.ofNat 16 (lenOf p (5 + 2 * words.length))),
        lo8 (BitVec.ofNat 16 (lenOf p (5 + 2 * words.length))), uid, 0x10, hi8 a, lo8 a, hi8 x, lo8 x,
        BitVec.ofNat 8 (2 * words.length)] ++
          words.flatMap fun w => [hi8 w, lo8 w]) ∧
    fcxx p fc tid uid payload =
      [hi8 tid, lo8 tid, 0, 0, hi8 (BitVec.ofNat 16 (lenOf p payload.length)),
        lo8 (BitVec.ofNat 16 (lenOf p payload.length)), uid, fc] ++ payload

/-! ### The protocol instructions -/

/-- R222, R223: Read Holding Registers, under either function code: the request that carries it; the response with the
`q` words of the range, each high byte first; exception 3 for a quantity of zero; else exception 2 for a range outside
the store. The response and the exceptions carry the request's function code, and no store word changes. -/
def Obligations.ReadHoldingRegistersReadsTheRange : Prop :=
  ∀ (h : Header) (a q : Word) (s : State) (fc : Byte) (i : Instr), s.LegalBuild →
    (fc = 0x03 ∧ i = .readHoldingRegisters h a q ∨ fc = 0x04 ∧ i = .readHoldingRegisters04 h a q) →
      decodeFrame s.params (twoWordFrame s.params h fc a q) = .ok i ∧
      (1 ≤ q.toNat → 40001 ≤ a.toNat → a.toNat - 40001 + q.toNat ≤ s.n →
        exec i s = .next (s.answered
          ([h.tid0, h.tid1, 0, 0, 0, BitVec.ofNat 8 (lenOf s.params (1 + 2 * q.toNat)), h.uid, fc,
              BitVec.ofNat 8 (2 * q.toNat)] ++
            ((s.store.drop (a.toNat - 40001)).take q.toNat).flatMap fun w => [hi8 w, lo8 w]))) ∧
      (q.toNat = 0 → exec i s = .next (s.answered (exceptionFrame s.params h fc 3))) ∧
      (1 ≤ q.toNat → a.toNat < 40001 ∨ s.n < a.toNat - 40001 + q.toNat →
        exec i s = .next (s.answered (exceptionFrame s.params h fc 2)))

/-- R97, R223: function codes 0x03 and 0x04 are one operation on one store; their responses differ in the function byte
alone, byte 7. -/
def Obligations.FunctionCodesThreeAndFourAgree : Prop :=
  ∀ (h : Header) (a q : Word) (s : State),
    ∃ three four, exec (.readHoldingRegisters h a q) s = .next (s.answered three) ∧
      exec (.readHoldingRegisters04 h a q) s = .next (s.answered four) ∧
      three.length = four.length ∧ (∀ k, k ≠ 7 → three.getD k 0 = four.getD k 0) ∧
      (three.getD 7 0 = 0x03 ∧ four.getD 7 0 = 0x04 ∨ three.getD 7 0 = 0x83 ∧ four.getD 7 0 = 0x84)

/-- R224: Write Single Register: the request that carries it; the word stored and the request echoed byte for byte;
exception 2, with nothing stored, for an address outside the store. No value is illegal. -/
def Obligations.WriteSingleRegisterStoresAndEchoes : Prop :=
  ∀ (h : Header) (a v : Word) (s : State), s.LegalBuild →
    decodeFrame s.params (twoWordFrame s.params h 0x06 a v) = .ok (.writeSingleRegister h a v) ∧
    (40001 ≤ a.toNat → a.toNat ≤ 40000 + s.n →
      exec (.writeSingleRegister h a v) s =
        .next (State.answered { s with store := s.store.set (a.toNat - 40001) v }
          (twoWordFrame s.params h 0x06 a v))) ∧
    (a.toNat < 40001 ∨ 40000 + s.n < a.toNat →
      exec (.writeSingleRegister h a v) s = .next (s.answered (exceptionFrame s.params h 0x06 2)))

/-- R225: Write Multiple Registers: the `q` words of the range become the data's words and every other word stays, the
echo is the start address and the quantity; exception 3 for a quantity of zero or a byte count other than `2q`, on
unbounded integers; else exception 2 for a range outside the store. With an exception nothing is stored. The request
that carries it, with any byte count that counts its data. -/
def Obligations.WriteMultipleRegistersStoresTheRange : Prop :=
  ∀ (h : Header) (a q : Word) (bc : Byte) (data : List Byte) (s : State), s.LegalBuild →
    data.length = bc.toNat →
      (13 + bc.toNat ≤ s.params.maxAdu →
        decodeFrame s.params
            ([h.tid0, h.tid1, 0, 0, hi8 (BitVec.ofNat 16 (lenOf s.params (5 + bc.toNat))),
              lo8 (BitVec.ofNat 16 (lenOf s.params (5 + bc.toNat))), h.uid, 0x10, hi8 a, lo8 a, hi8 q, lo8 q, bc] ++
              data) =
          .ok (.writeMultipleRegisters h a q bc data)) ∧
      (1 ≤ q.toNat → bc.toNat = 2 * q.toNat → 40001 ≤ a.toNat → a.toNat - 40001 + q.toNat ≤ s.n →
        ∃ store', exec (.writeMultipleRegisters h a q bc data) s =
            .next (State.answered { s with store := store' } (twoWordFrame s.params h 0x10 a q)) ∧
          store'.length = s.store.length ∧
          (∀ k, k < q.toNat → store'.getD (a.toNat - 40001 + k) 0 =
            be16 (data.getD (2 * k) 0) (data.getD (2 * k + 1) 0)) ∧
          (∀ j, j < a.toNat - 40001 ∨ a.toNat - 40001 + q.toNat ≤ j → store'.getD j 0 = s.store.getD j 0)) ∧
      (q.toNat = 0 ∨ bc.toNat ≠ 2 * q.toNat →
        exec (.writeMultipleRegisters h a q bc data) s =
          .next (s.answered (exceptionFrame s.params h 0x10 3))) ∧
      (1 ≤ q.toNat → bc.toNat = 2 * q.toNat → a.toNat < 40001 ∨ s.n < a.toNat - 40001 + q.toNat →
        exec (.writeMultipleRegisters h a q bc data) s =
          .next (s.answered (exceptionFrame s.params h 0x10 2)))

/-- R226: any other function code is answered IllegalFunction, unconditionally, whatever its payload, which is not read;
the store is neither read nor written. Every accepted frame with such a code decodes to it. -/
def Obligations.IllegalFunctionIsAnswered : Prop :=
  ∀ (h : Header) (fc : Byte) (payload : List Byte) (s : State),
    fc ≠ 0x03 → fc ≠ 0x04 → fc ≠ 0x06 → fc ≠ 0x10 →
      (∀ b, decodeADU s.params b = .ok { hdr := h, fc := fc, payload := payload } →
        decodeFrame s.params b = .ok (.illegalFunction h fc payload)) ∧
      exec (.illegalFunction h fc payload) s = .next (s.answered (exceptionFrame s.params h fc 1))

/-! ### The host operations -/

/-- R141: getU16. -/
def Obligations.GetU16ReadsOneWord : Prop :=
  ∀ (a : Word) (w : DWord) (s : State),
    decodeHostOp { op := 0b000, addr := a, wdata := w } = .getU16 a ∧
    (40001 ≤ a.toNat → a.toNat ≤ 40000 + s.n →
      exec (.getU16 a) s = .next (s.returned (.ok16 (s.store.getD (a.toNat - 40001) 0)))) ∧
    (a.toNat < 40001 ∨ 40000 + s.n < a.toNat →
      exec (.getU16 a) s = .next (s.returned (.err .addressOutOfRange))) ∧
    ∀ v, (HostResult.ok16 v).rdata = some (v.setWidth 32)

/-- R142: setU16, which ignores `wdata[31:16]`. -/
def Obligations.SetU16WritesOneWord : Prop :=
  ∀ (a : Word) (w : DWord) (s : State),
    decodeHostOp { op := 0b001, addr := a, wdata := w } = .setU16 a w ∧
    (40001 ≤ a.toNat → a.toNat ≤ 40000 + s.n →
      exec (.setU16 a w) s =
        .next (State.returned { s with store := s.store.set (a.toNat - 40001) (BitVec.ofNat 16 w.toNat) } .ok)) ∧
    (a.toNat < 40001 ∨ 40000 + s.n < a.toNat →
      exec (.setU16 a w) s = .next (s.returned (.err .addressOutOfRange)))

/-- R143: getU32, `store[i+1] * 65536 + store[i]`. -/
def Obligations.GetU32JoinsTwoWords : Prop :=
  ∀ (a : Word) (w : DWord) (s : State),
    decodeHostOp { op := 0b010, addr := a, wdata := w } = .getU32 a ∧
    (40001 ≤ a.toNat → a.toNat < 40000 + s.n →
      exec (.getU32 a) s = .next (s.returned (.ok32 (BitVec.ofNat 32
        ((s.store.getD (a.toNat - 40001 + 1) 0).toNat * 65536 + (s.store.getD (a.toNat - 40001) 0).toNat))))) ∧
    (a.toNat < 40001 ∨ 40000 + s.n ≤ a.toNat →
      exec (.getU32 a) s = .next (s.returned (.err .addressOutOfRange)))

/-- R144: setU32: both words in one step, low half first; at index N-1 and outside, neither. -/
def Obligations.SetU32WritesBothWordsOrNeither : Prop :=
  ∀ (a : Word) (w : DWord) (s : State),
    decodeHostOp { op := 0b011, addr := a, wdata := w } = .setU32 a w ∧
    (40001 ≤ a.toNat → a.toNat < 40000 + s.n →
      exec (.setU32 a w) s = .next (State.returned
        { s with store := (s.store.set (a.toNat - 40001) (BitVec.ofNat 16 w.toNat)).set (a.toNat - 40001 + 1)
                            (BitVec.ofNat 16 (w.toNat / 65536)) } .ok)) ∧
    (a.toNat < 40001 ∨ 40000 + s.n ≤ a.toNat →
      exec (.setU32 a w) s = .next (s.returned (.err .addressOutOfRange)))

/-- R145: getFloat returns the pattern unchanged, the same 32 bits as getU32. -/
def Obligations.GetFloatReturnsThePattern : Prop :=
  ∀ (a : Word) (w : DWord) (s : State),
    decodeHostOp { op := 0b100, addr := a, wdata := w } = .getFloat a ∧
    (40001 ≤ a.toNat → a.toNat < 40000 + s.n →
      exec (.getFloat a) s = .next (s.returned (.ok32 (BitVec.ofNat 32
        ((s.store.getD (a.toNat - 40001 + 1) 0).toNat * 65536 + (s.store.getD (a.toNat - 40001) 0).toNat))))) ∧
    (a.toNat < 40001 ∨ 40000 + s.n ≤ a.toNat →
      exec (.getFloat a) s = .next (s.returned (.err .addressOutOfRange))) ∧
    exec (.getFloat a) s = exec (.getU32 a) s

/-- R146: setFloat stores the pattern bit-exact, whatever it denotes, as setU32 does. -/
def Obligations.SetFloatStoresThePattern : Prop :=
  ∀ (a : Word) (w : DWord) (s : State),
    decodeHostOp { op := 0b101, addr := a, wdata := w } = .setFloat a w ∧
    (40001 ≤ a.toNat → a.toNat < 40000 + s.n →
      exec (.setFloat a w) s = .next (State.returned
        { s with store := (s.store.set (a.toNat - 40001) (BitVec.ofNat 16 w.toNat)).set (a.toNat - 40001 + 1)
                            (BitVec.ofNat 16 (w.toNat / 65536)) } .ok)) ∧
    (a.toNat < 40001 ∨ 40000 + s.n ≤ a.toNat →
      exec (.setFloat a w) s = .next (s.returned (.err .addressOutOfRange)))

/-- R148: host op codes 110 and 111 name no operation, and a host step with one is refused. -/
def Obligations.ReservedHostOpIsRefused : Prop :=
  ∀ (o : HostOp) (s : State), o.op = 0b110 ∨ o.op = 0b111 →
    ∃ r, decodeHostOp o = .hostReserved r o.addr o.wdata ∧
      exec (.hostReserved r o.addr o.wdata) s = .refused (.reservedHostOp o.op)

/-- R101: `err` and `rdata` on the host port's wires. err is 1 exactly on an error, and then there is no rdata and no word
was written. When err is 0, rdata is there for a get and not for a set: for getU16 the word with zeros above it, for
getU32 and getFloat all 32 bits of the two words, high word at the higher index. -/
def Obligations.HostWiresCarryTheResult : Prop :=
  ∀ (i : Instr) (s t : State) (r : HostResult), i.header? = none → exec i s = .next t →
    t.results = s.results ++ [r] →
      (r.errBit = true ↔ r = .err .addressOutOfRange) ∧
      (r.errBit = true → r.rdata = none ∧ t.store = s.store) ∧
      (r.errBit = false →
        (r.rdata.isSome ↔ (∃ a, i = .getU16 a) ∨ (∃ a, i = .getU32 a) ∨ ∃ a, i = .getFloat a) ∧
        (∀ a, i = .getU16 a →
          r.rdata = some (BitVec.ofNat 32 (s.store.getD (a.toNat - 40001) 0).toNat)) ∧
        (∀ a, i = .getU32 a ∨ i = .getFloat a →
          r.rdata = some (BitVec.ofNat 32
            ((s.store.getD (a.toNat - 40001 + 1) 0).toNat * 65536 + (s.store.getD (a.toNat - 40001) 0).toNat))))

/-! ### Laws of the store -/

/-- R149, all its laws: a value set is the value got, at 16 and 32 bits and for floats; the accessors fail outside their
bounds; and a 32-bit value is seen half by half, low word first. -/
def Obligations.SetThenGetReturnsTheValue : Prop :=
  ∀ (a a' : Word) (w : DWord) (s : State),
    (valid16 s.n a → ∃ t, exec (.setU16 a w) s = .next t ∧
      exec (.getU16 a) t = .next (t.returned (.ok16 (lowWord w)))) ∧
    (valid32 s.n a → ∃ t, exec (.setU32 a w) s = .next t ∧
      exec (.getU32 a) t = .next (t.returned (.ok32 w)) ∧
      exec (.getU16 a) t = .next (t.returned (.ok16 (lowWord w))) ∧
      (a'.toNat = a.toNat + 1 → exec (.getU16 a') t = .next (t.returned (.ok16 (highWord w))))) ∧
    (valid32 s.n a → ∃ t, exec (.setFloat a w) s = .next t ∧
      exec (.getFloat a) t = .next (t.returned (.ok32 w))) ∧
    (a.toNat ≤ 40000 ∨ 40001 + s.n ≤ a.toNat →
      exec (.getU16 a) s = .next (s.returned (.err .addressOutOfRange)) ∧
      exec (.setU16 a w) s = .next (s.returned (.err .addressOutOfRange))) ∧
    (a.toNat ≤ 40000 ∨ 40000 + s.n ≤ a.toNat →
      exec (.getU32 a) s = .next (s.returned (.err .addressOutOfRange)) ∧
      exec (.setU32 a w) s = .next (s.returned (.err .addressOutOfRange)) ∧
      exec (.getFloat a) s = .next (s.returned (.err .addressOutOfRange)) ∧
      exec (.setFloat a w) s = .next (s.returned (.err .addressOutOfRange)))

/-- R69, R150: a 32-bit value or float published on the host port is read by a client with quantity 2 as the four bytes
`v[15:8] v[7:0] v[31:24] v[23:16]`. -/
def Obligations.PublishedValueOnTheWire : Prop :=
  ∀ (h : Header) (a : Word) (v : DWord) (s : State), s.LegalBuild → valid32 s.n a →
    ∀ i, (i = Instr.setU32 a v ∨ i = Instr.setFloat a v) →
      ∃ t, exec i s = .next t ∧
        exec (.readHoldingRegisters h a 2) t = .next (t.answered
          [h.tid0, h.tid1, 0, 0, 0, BitVec.ofNat 8 (lenOf s.params 5), h.uid, 0x03, 4,
            v.extractLsb' 8 8, v.extractLsb' 0 8, v.extractLsb' 24 8, v.extractLsb' 16 8])

/-- R103: WRF32 writes a 32-bit value in one transaction in the store's layout, and RDF32 reads it back: the two words
of the response join to the value. -/
def Obligations.PseudoOperationsMoveThirtyTwoBits : Prop :=
  ∀ (tid : Word) (uid : Byte) (a : Word) (x : DWord) (s : State), s.LegalBuild → valid32 s.n a →
    ∃ t, exec (wrf32 tid uid a x) s = .next t ∧
      exec (.getU32 a) t = .next (t.returned (.ok32 x)) ∧
      exec (.getFloat a) t = .next (t.returned (.ok32 x)) ∧
      ∃ w0 w1, join32 w0 w1 = x ∧
        exec (rdf32 tid uid a) t = .next (t.answered
          [hi8 tid, lo8 tid, 0, 0, 0, BitVec.ofNat 8 (lenOf s.params 5), uid, 0x03, 4, hi8 w0, lo8 w0, hi8 w1,
            lo8 w1])

/-- R325: the torn write. A client that writes the two halves with two Write Single Register requests lets a host read
between them see one new half and one old half. -/
def Obligations.TornWriteIsSeen : Prop :=
  ∀ (h h' : Header) (a a' : Word) (x : DWord) (s : State), s.LegalBuild → valid32 s.n a →
    a'.toNat = a.toNat + 1 →
      ∃ t u v, exec (.writeSingleRegister h a (lowWord x)) s = .next t ∧
        exec (.getFloat a) t = .next u ∧
        u.results = s.results ++ [.ok32 (join32 (lowWord x) (s.readWord (slot a + 1)))] ∧
        exec (.writeSingleRegister h' a' (highWord x)) u = .next v ∧
        exec (.getFloat a) v = .next (v.returned (.ok32 x))

/-- R74: reads have no side effects on the store, whatever they answer, and a write is idempotent: running the same
instruction again leaves the store as the first run left it. -/
def Obligations.ReadsLeaveTheStoreAndWritesAreIdempotent : Prop :=
  ∀ (i : Instr) (s t : State), exec i s = .next t →
    (i.written.2 = 0 → t.store = s.store) ∧ ∃ u, exec i t = .next u ∧ u.store = t.store

/-- R31: only the words an instruction's own operands name are written, whatever it answers; the store keeps its
length, and every other word reads as before. -/
def Obligations.OnlyTheNamedWordsAreWritten : Prop :=
  ∀ (i : Instr) (s t : State), exec i s = .next t →
    t.store.length = s.store.length ∧
      ∀ j, (j < i.written.1 ∨ i.written.1 + i.written.2 ≤ j) → t.readWord j = s.readWord j

/-- The frame of every protocol instruction, in every state: one more outcome, the port idle, and of the store only the
words its own operands name, through the function its meaning uses (`Instr.written`): every other word reads as before,
and a read or an illegal function leaves the store. Nothing else changes. -/
def Obligations.ProtocolInstructionFrame : Prop :=
  ∀ (i : Instr) (h : Header) (s : State), i.header? = some h →
    ∃ store' bytes, exec i s = .next (State.answered { s with store := store' } bytes) ∧
      store'.length = s.store.length ∧ (i.written.2 = 0 → store' = s.store) ∧
      ∀ j, (j < i.written.1 ∨ i.written.1 + i.written.2 ≤ j) → store'.getD j 0 = s.store.getD j 0

/-- The frame of every host operation but the reserved ones, in every state: one more result, the port idle, and of the
store only the words its own operands name (`Instr.written`): every other word reads as before, and a get leaves the
store. Nothing else changes. -/
def Obligations.HostOperationFrame : Prop :=
  ∀ (i : Instr) (s : State), i.header? = none → (∀ r a w, i ≠ .hostReserved r a w) →
    ∃ store' r, exec i s = .next (State.returned { s with store := store' } r) ∧
      store'.length = s.store.length ∧ (i.written.2 = 0 → store' = s.store) ∧
      ∀ j, (j < i.written.1 ∨ i.written.1 + i.written.2 ≤ j) → store'.getD j 0 = s.store.getD j 0

/-! ### Exceptions and errors -/

/-- R229, R286: all or nothing. A protocol transaction either answers with an exception, function byte 0x80 or above,
and then wrote nothing and its response is the nine bytes of R283 with code 1, 2 or 3 (R289), or it answers normally. -/
def Obligations.ExceptionMeansNothingWritten : Prop :=
  ∀ (i : Instr) (h : Header) (s t : State) (bytes : List Byte), i.header? = some h → exec i s = .next t →
    t.outcomes = s.outcomes ++ [.response bytes] → 0x80 ≤ bytes.getD 7 0 →
      t.store = s.store ∧
        ∃ code, (code = 1 ∨ code = 2 ∨ code = 3) ∧
          bytes = [h.tid0, h.tid1, 0, 0, 0, BitVec.ofNat 8 (lenOf s.params 1), h.uid, bytes.getD 7 0, code]

/-- R284: the fixed order of the checks. A malformed frame is dropped whatever its function code; then the function
code; then the quantity and byte count; then the address. Here: the last two, on a request that fails both. -/
def Obligations.ValueIsCheckedBeforeAddress : Prop :=
  ∀ (h : Header) (a q : Word) (bc : Byte) (data : List Byte) (s : State),
    a.toNat < 40001 ∨ 40000 + s.n < a.toNat →
      (q.toNat = 0 →
        exec (.readHoldingRegisters h a q) s = .next (s.answered (exceptionFrame s.params h 0x03 3)) ∧
        exec (.readHoldingRegisters04 h a q) s = .next (s.answered (exceptionFrame s.params h 0x04 3))) ∧
      (q.toNat = 0 ∨ bc.toNat ≠ 2 * q.toNat →
        exec (.writeMultipleRegisters h a q bc data) s =
          .next (s.answered (exceptionFrame s.params h 0x10 3)))

/-- R191: the echo. A Write Single Register request that succeeds is answered with its own frame, byte for byte, and a
Write Multiple Registers request with its first twelve bytes, the length field replaced. -/
def Obligations.WritesEchoTheRequest : Prop :=
  ∀ (b : List Byte) (i : Instr) (s t : State) (bytes : List Byte),
    decodeFrame s.params b = .ok i → exec i s = .next t → t.outcomes = s.outcomes ++ [.response bytes] →
      bytes.getD 7 0 < 0x80 →
        (∀ h a v, i = .writeSingleRegister h a v → bytes = b) ∧
        (∀ h a q bc data, i = .writeMultipleRegisters h a q bc data →
          bytes = b.take 4 ++ [0, BitVec.ofNat 8 (lenOf s.params 4)] ++ (b.drop 6).take 6)

/-- R190: the round trip of a response. Every response that fits MAX_ADU is accepted by decodeADU, which returns the
opaque bytes of the request and the function byte of the response. -/
def Obligations.EmittedResponsesDecode : Prop :=
  ∀ (i : Instr) (h : Header) (s t : State) (bytes : List Byte), s.LegalBuild → i.header? = some h →
    exec i s = .next t → t.outcomes = s.outcomes ++ [.response bytes] → bytes.length ≤ s.params.maxAdu →
      ∃ payload, decodeADU s.params bytes = .ok { hdr := h, fc := bytes.getD 7 0, payload := payload }

/-- R230, R34: an instruction's answer and its writes depend only on the instruction, the store and the parameters:
two states that agree on these, and differ in anything else, get the same outcome or result and the same store. -/
def Obligations.AnswerDependsOnStoreAlone : Prop :=
  ∀ (i : Instr) (s₁ s₂ t₁ : State), s₁.params = s₂.params → s₁.store = s₂.store → exec i s₁ = .next t₁ →
    ∃ t₂ os rs, exec i s₂ = .next t₂ ∧ t₂.store = t₁.store ∧
      t₁.outcomes = s₁.outcomes ++ os ∧ t₂.outcomes = s₂.outcomes ++ os ∧
      t₁.results = s₁.results ++ rs ∧ t₂.results = s₂.results ++ rs

/-- R185: TID and UID are opaque. The same request with other opaque bytes leaves the same store and gets the same
response, but for the bytes 0, 1 and 6, where its own are echoed. -/
def Obligations.HeaderIsOpaqueAndEchoed : Prop :=
  ∀ (i : Instr) (h h' : Header) (s : State), i.header? = some h →
    ∃ store' bytes bytes',
      exec i s = .next (State.answered { s with store := store' } bytes) ∧
      exec (i.withHeader h') s = .next (State.answered { s with store := store' } bytes') ∧
      bytes.getD 0 0 = h.tid0 ∧ bytes.getD 1 0 = h.tid1 ∧ bytes.getD 6 0 = h.uid ∧
      bytes' = ((bytes.set 0 h'.tid0).set 1 h'.tid1).set 6 h'.uid

/-- R79: what a frame decodes to does not depend on the store: after any step the same frame decodes the same. -/
def Obligations.StoreNeverChangesDecoding : Prop :=
  ∀ (s t : State) (x : Transaction), step s = .next t → decode t.params x = decode s.params x

/-! ### Whole runs -/

/-- What comes in from outside, and a reset in mid-run, keep the invariant, as a step does (StepKeepsInvariant). -/
def Obligations.InputsAndResetKeepInvariant : Prop :=
  ∀ s : State, s.Inv →
    (∀ b, (s.deliver b).Inv) ∧ (∀ o, (s.issue o).Inv) ∧ ∀ init, (s.resetAgain init).Inv

/-- The invariant holds in every state of every run of every legal build: from reset, under any inputs and resets. -/
def Obligations.ReachableStatesMeetInvariant : Prop :=
  ∀ s : State, Reachable s → s.Inv

/-- R75 items 1 and 2, R38 to R40: a run serves each port in the order of arrival and answers each operation with one of
its own: the frames taken are the oldest ones, and the k-th new outcome is one of the k-th of them, with its TID, UID and
function code, or DROPPED if it is malformed; the same for host operations, whose results have the width asked for. -/
def Obligations.RunServesInArrivalOrder : Prop :=
  ∀ (k : Nat) (s t : State), s.inFlight = none → run k s = .next t →
    (∃ bs os, s.frames = bs ++ t.frames ∧ t.outcomes = s.outcomes ++ os ∧
      List.Forall₂ (OutcomeOf s.params) bs os) ∧
    (∃ ops rs, s.hostOps = ops ++ t.hostOps ∧ t.results = s.results ++ rs ∧ List.Forall₂ ResultOf ops rs)
end

