-- ==== Sys2Proof/Laws/Bytes.lean ====
section
/-!
SUPPORT. The byte-order and half-word helpers: each pair undoes the other (R12, R67, R68).
-/

namespace Sys2Proof

theorem be16_toNat (x y : Byte) : (be16 x y).toNat = x.toNat * 256 + y.toNat := by
  have hy := y.isLt
  rw [be16, BitVec.toNat_append, ← Nat.shiftLeft_add_eq_or_of_lt hy, Nat.shiftLeft_eq]

theorem hi8_toNat (w : Word) : (hi8 w).toNat = w.toNat / 256 := by
  have := w.isLt
  rw [hi8, BitVec.extractLsb'_toNat, Nat.shiftRight_eq_div_pow]
  omega

theorem lo8_toNat (w : Word) : (lo8 w).toNat = w.toNat % 256 := by
  rw [lo8, BitVec.extractLsb'_toNat, Nat.shiftRight_zero]

theorem join32_toNat (lo hi : Word) : (join32 lo hi).toNat = hi.toNat * 65536 + lo.toNat := by
  have h := lo.isLt
  rw [join32, BitVec.toNat_append, ← Nat.shiftLeft_add_eq_or_of_lt h, Nat.shiftLeft_eq]

theorem lowWord_toNat (v : DWord) : (lowWord v).toNat = v.toNat % 65536 := by
  rw [lowWord, BitVec.extractLsb'_toNat, Nat.shiftRight_zero]

theorem highWord_toNat (v : DWord) : (highWord v).toNat = v.toNat / 65536 := by
  have := v.isLt
  rw [highWord, BitVec.extractLsb'_toNat, Nat.shiftRight_eq_div_pow]
  omega

@[simp] theorem hi8_be16 (x y : Byte) : hi8 (be16 x y) = x := by
  have := y.isLt
  apply BitVec.eq_of_toNat_eq
  rw [hi8_toNat, be16_toNat]
  omega

@[simp] theorem lo8_be16 (x y : Byte) : lo8 (be16 x y) = y := by
  have := y.isLt
  apply BitVec.eq_of_toNat_eq
  rw [lo8_toNat, be16_toNat]
  omega

@[simp] theorem be16_hi8_lo8 (w : Word) : be16 (hi8 w) (lo8 w) = w := by
  apply BitVec.eq_of_toNat_eq
  rw [be16_toNat, hi8_toNat, lo8_toNat]
  omega

theorem be16_eq_zero (x y : Byte) : be16 x y = 0 ↔ x = 0 ∧ y = 0 := by
  constructor
  · intro h
    have hx : x = hi8 (be16 x y) := by rw [hi8_be16]
    have hy : y = lo8 (be16 x y) := by rw [lo8_be16]
    rw [h] at hx hy
    exact ⟨hx, hy⟩
  · rintro ⟨rfl, rfl⟩
    rfl

@[simp] theorem lowWord_join32 (lo hi : Word) : lowWord (join32 lo hi) = lo := by
  have := lo.isLt
  apply BitVec.eq_of_toNat_eq
  rw [lowWord_toNat, join32_toNat]
  omega

@[simp] theorem highWord_join32 (lo hi : Word) : highWord (join32 lo hi) = hi := by
  have := lo.isLt
  apply BitVec.eq_of_toNat_eq
  rw [highWord_toNat, join32_toNat]
  omega

@[simp] theorem join32_halves (v : DWord) : join32 (lowWord v) (highWord v) = v := by
  apply BitVec.eq_of_toNat_eq
  rw [join32_toNat, lowWord_toNat, highWord_toNat]
  omega

@[simp] theorem wordsToBytes_nil : wordsToBytes [] = [] := rfl

@[simp] theorem wordsToBytes_cons (w : Word) (ws : List Word) :
    wordsToBytes (w :: ws) = hi8 w :: lo8 w :: wordsToBytes ws := rfl

theorem wordsToBytes_length (ws : List Word) : (wordsToBytes ws).length = 2 * ws.length := by
  induction ws with
  | nil => rfl
  | cons w ws ih => simp [ih]; omega

theorem wordsToBytes_eq_flatMap (ws : List Word) :
    wordsToBytes ws = ws.flatMap fun w => [hi8 w, lo8 w] := by
  induction ws with
  | nil => rfl
  | cons w ws ih => simp [ih]

/-- A 16-bit number written big-endian and read again. -/
theorem be16_ofNat (n : Nat) (h : n < 65536) :
    (be16 (hi8 (BitVec.ofNat 16 n)) (lo8 (BitVec.ofNat 16 n))).toNat = n := by
  simp [Nat.mod_eq_of_lt h]

theorem hi8_ofNat_small (n : Nat) (h : n < 256) : hi8 (BitVec.ofNat 16 n) = 0 := by
  apply BitVec.eq_of_toNat_eq
  rw [hi8_toNat, BitVec.toNat_ofNat]
  change n % 65536 / 256 = 0
  omega

theorem lo8_ofNat (n : Nat) : lo8 (BitVec.ofNat 16 n) = BitVec.ofNat 8 n := by
  apply BitVec.eq_of_toNat_eq
  rw [lo8_toNat, BitVec.toNat_ofNat, BitVec.toNat_ofNat]
  omega

end Sys2Proof
end

