-- ==== Sys2Proof/Laws/Decode.lean ====
section
/-!
SUPPORT. What the frame builder builds and what the frame decoder makes of it (R180, R188, R190).
-/

namespace Sys2Proof

@[simp] theorem frameBytes_length (p : Params) (h : Header) (fc : Byte) (payload : List Byte) :
    (frameBytes p h fc payload).length = 8 + payload.length := by
  simp [frameBytes]; omega

/-- A frame whose length field fits 16 bits and which fits the buffer is decoded to what it was built from. -/
theorem decodeADU_frameBytes (p q : Params) (h : Header) (fc : Byte) (payload : List Byte)
    (mode : p.lenMode = q.lenMode) (fits : 8 + payload.length ≤ q.maxAdu) (len : lenOf p payload.length < 65536) :
    decodeADU q (frameBytes p h fc payload) = .ok { hdr := h, fc := fc, payload := payload } := by
  have hlen : lenOf q payload.length = lenOf p payload.length := by simp [lenOf, mode]
  have hfit : ¬ q.maxAdu < payload.length + 1 + 1 + 1 + 1 + 1 + 1 + 1 + 1 := by omega
  simp only [frameBytes, List.cons_append, List.nil_append, decodeADU, List.length_cons, hfit, if_false,
    be16_ofNat _ len, hlen, (be16_eq_zero 0 0).mpr ⟨rfl, rfl⟩, ne_eq, not_true_eq_false]

/-- decodeADU takes a frame apart: what it accepts is the frame built from what it returns (R180, R190). -/
theorem frameBytes_of_decodeADU (p : Params) (b : List Byte) (fr : Frame) (h : decodeADU p b = .ok fr) :
    b = frameBytes p fr.hdr fr.fc fr.payload ∧ b.length ≤ p.maxAdu ∧ lenOf p fr.payload.length < 65536 := by
  unfold decodeADU at h
  split at h
  · rename_i t0 t1 p0 p1 l0 l1 u fc payload
    split at h
    · cases h
    · split at h
      · cases h
      · split at h
        · cases h
        · rename_i h1 h2 h3
          simp only [not_not] at h2 h3
          obtain ⟨rfl, rfl⟩ := (be16_eq_zero p0 p1).mp h2
          cases h
          refine ⟨?_, by omega, ?_⟩
          · have e : BitVec.ofNat 16 (lenOf p payload.length) = be16 l0 l1 := by
              rw [← h3]; simp
            simp [frameBytes, e]
          · have := (be16 l0 l1).isLt
            simp only; omega
  · cases h

theorem decodeADU_error_of_fit (p : Params) (b : List Byte) (h : p.maxAdu < b.length) :
    ∀ fr, decodeADU p b ≠ .ok fr := by
  intro fr hf
  have := (frameBytes_of_decodeADU p b fr hf).2.1
  omega

/-- The length field of a frame whose payload fits a response or a request of ordinary size is one byte (R92). -/
theorem lenOf_lt (p : Params) (n : Nat) (h : n ≤ 253) : lenOf p n < 256 := by
  unfold lenOf
  split <;> omega

/-- Such a frame, with its header written out (R95, R102, R188). -/
theorem frameBytes_small (p : Params) (h : Header) (fc : Byte) (payload : List Byte) (small : payload.length ≤ 253) :
    frameBytes p h fc payload =
      [h.tid0, h.tid1, 0, 0, 0, BitVec.ofNat 8 (lenOf p payload.length), h.uid, fc] ++ payload := by
  simp [frameBytes, hi8_ofNat_small _ (lenOf_lt p _ small), lo8_ofNat]

/-- The function byte of a frame. -/
theorem frameBytes_getD_seven (p : Params) (h : Header) (fc : Byte) (payload : List Byte) :
    (frameBytes p h fc payload).getD 7 0 = fc := rfl

theorem parseTwoWords_cases (payload : List Byte) (k : Word → Word → Instr) (i : Instr)
    (h : parseTwoWords payload k = .ok i) : ∃ x y, i = k x y ∧ payload = wordBytes x ++ wordBytes y := by
  unfold parseTwoWords at h
  split at h
  · cases h
    exact ⟨_, _, rfl, by simp [wordBytes]⟩
  · cases h

/-- Everything parsePDU can answer with an instruction: which one, and the payload it read (R186, R221). -/
theorem parsePDU_cases (fr : Frame) (i : Instr) (h : parsePDU fr = .ok i) :
    (fr.fc = 0x03 ∧ ∃ a q, i = .readHoldingRegisters fr.hdr a q ∧ fr.payload = wordBytes a ++ wordBytes q) ∨
    (fr.fc = 0x04 ∧ ∃ a q, i = .readHoldingRegisters04 fr.hdr a q ∧ fr.payload = wordBytes a ++ wordBytes q) ∨
    (fr.fc = 0x06 ∧ ∃ a v, i = .writeSingleRegister fr.hdr a v ∧ fr.payload = wordBytes a ++ wordBytes v) ∨
    (fr.fc = 0x10 ∧ ∃ a q bc data, i = .writeMultipleRegisters fr.hdr a q bc data ∧
      fr.payload = wordBytes a ++ wordBytes q ++ bc :: data ∧ data.length = bc.toNat) ∨
    (fr.fc ∉ supportedFunctions ∧ i = .illegalFunction fr.hdr fr.fc fr.payload) := by
  unfold parsePDU at h
  split at h
  · rename_i hf
    exact .inl ⟨hf, parseTwoWords_cases _ _ i h⟩
  split at h
  · rename_i hf
    exact .inr (.inl ⟨hf, parseTwoWords_cases _ _ i h⟩)
  split at h
  · rename_i hf
    exact .inr (.inr (.inl ⟨hf, parseTwoWords_cases _ _ i h⟩))
  split at h
  · rename_i hf
    unfold parseWriteN at h
    split at h
    · rename_i a0 a1 q0 q1 bc data hp
      split at h
      · rename_i hl
        cases h
        exact .inr (.inr (.inr (.inl ⟨hf, _, _, _, _, rfl, by simp [wordBytes, hp], hl⟩)))
      · cases h
    · cases h
  · rename_i h1 h2 h3 h4
    cases h
    exact .inr (.inr (.inr (.inr ⟨by simp [supportedFunctions]; exact ⟨h1, h2, h3, h4⟩, rfl⟩)))

end Sys2Proof
end

