-- ==== Sys2Proof/Laws/PerInstr.lean ====
section
/-!
SUPPORT. Facts about every instruction as syntax, one lemma for each constructor. Accepted: the frame that the encoder
puts on the protocol port for a well-formed instruction passes decodeADU's header checks (R180, R184).
-/

namespace Sys2Proof.Laws.Accepted

/-- Whatever frame a well-formed instruction is encoded as, decodeADU accepts it and returns its header. -/
def Statement (i : Instr) : Prop :=
  ∀ (p : Params) (b : List Byte), i.wellFormed p = true → encode p i = .frame b →
    ∃ fr, decodeADU p b = .ok fr ∧ b = frameBytes p fr.hdr fr.fc fr.payload

/-- A frame that fits the buffer and the length field is accepted. -/
theorem of_fits (p : Params) (h : Header) (fc : Byte) (payload : List Byte)
    (fits : 8 + payload.length ≤ p.maxAdu) (len : lenOf p payload.length < 65536) :
    ∃ fr, decodeADU p (frameBytes p h fc payload) = .ok fr ∧
      frameBytes p h fc payload = frameBytes p fr.hdr fr.fc fr.payload :=
  ⟨_, decodeADU_frameBytes p p h fc payload rfl fits len, rfl⟩

theorem lenOf_small (p : Params) (n : Nat) (h : n ≤ 300) : lenOf p n < 65536 := by
  unfold lenOf
  split <;> omega

theorem readHoldingRegisters (h : Header) (a q : Word) : Statement (.readHoldingRegisters h a q) := by
  intro p b wf e
  cases e
  exact of_fits p h _ _ (by simpa [Instr.wellFormed, wordBytes] using wf) (lenOf_small _ _ (by simp [wordBytes]))

theorem readHoldingRegisters04 (h : Header) (a q : Word) : Statement (.readHoldingRegisters04 h a q) := by
  intro p b wf e
  cases e
  exact of_fits p h _ _ (by simpa [Instr.wellFormed, wordBytes] using wf) (lenOf_small _ _ (by simp [wordBytes]))

theorem writeSingleRegister (h : Header) (a v : Word) : Statement (.writeSingleRegister h a v) := by
  intro p b wf e
  cases e
  exact of_fits p h _ _ (by simpa [Instr.wellFormed, wordBytes] using wf) (lenOf_small _ _ (by simp [wordBytes]))

theorem writeMultipleRegisters (h : Header) (a q : Word) (bc : Byte) (data : List Byte) :
    Statement (.writeMultipleRegisters h a q bc data) := by
  intro p b wf e
  cases e
  have hbc := bc.isLt
  simp only [Instr.wellFormed, decide_eq_true_eq] at wf
  obtain ⟨hl, hf⟩ := wf
  refine of_fits p h _ _ ?_ (lenOf_small _ _ ?_)
  · simp [wordBytes, hl]; omega
  · simp [wordBytes, hl]; omega

theorem illegalFunction (h : Header) (fc : Byte) (payload : List Byte) :
    Statement (.illegalFunction h fc payload) := by
  intro p b wf e
  cases e
  simp only [Instr.wellFormed, decide_eq_true_eq] at wf
  exact of_fits p h _ _ wf.2.1 wf.2.2

theorem getU16 (a : Word) : Statement (.getU16 a) := by intro p b wf e; cases e
theorem setU16 (a : Word) (w : DWord) : Statement (.setU16 a w) := by intro p b wf e; cases e
theorem getU32 (a : Word) : Statement (.getU32 a) := by intro p b wf e; cases e
theorem setU32 (a : Word) (w : DWord) : Statement (.setU32 a w) := by intro p b wf e; cases e
theorem getFloat (a : Word) : Statement (.getFloat a) := by intro p b wf e; cases e
theorem setFloat (a : Word) (w : DWord) : Statement (.setFloat a w) := by intro p b wf e; cases e
theorem hostReserved (r : Bool) (a : Word) (w : DWord) : Statement (.hostReserved r a w) := by
  intro p b wf e; cases e

end Sys2Proof.Laws.Accepted
end

