-- ==== Sys2Proof/Laws/State.lean ====
section
/-!
SUPPORT. One lemma for each field after each update of the state, so that no later proof unfolds a record update.
-/

namespace Sys2Proof.Machine

section
variable (s : State)

/-! ### StoreWrite -/

@[simp] theorem writeWord_params (i : Nat) (v : Word) : (s.writeWord i v).params = s.params := rfl
@[simp] theorem writeWord_store (i : Nat) (v : Word) : (s.writeWord i v).store = s.store.set i v := rfl
@[simp] theorem writeWord_frames (i : Nat) (v : Word) : (s.writeWord i v).frames = s.frames := rfl
@[simp] theorem writeWord_hostOps (i : Nat) (v : Word) : (s.writeWord i v).hostOps = s.hostOps := rfl
@[simp] theorem writeWord_inFlight (i : Nat) (v : Word) : (s.writeWord i v).inFlight = s.inFlight := rfl
@[simp] theorem writeWord_outbound (i : Nat) (v : Word) : (s.writeWord i v).outbound = s.outbound := rfl
@[simp] theorem writeWord_outcomes (i : Nat) (v : Word) : (s.writeWord i v).outcomes = s.outcomes := rfl
@[simp] theorem writeWord_results (i : Nat) (v : Word) : (s.writeWord i v).results = s.results := rfl
@[simp] theorem writeWord_turn (i : Nat) (v : Word) : (s.writeWord i v).turn = s.turn := rfl
@[simp] theorem writeWord_credit (i : Nat) (v : Word) : (s.writeWord i v).credit = s.credit := rfl
@[simp] theorem writeWord_draws (i : Nat) (v : Word) : (s.writeWord i v).draws = s.draws := rfl

/-! ### Ending a protocol transaction -/

@[simp] theorem emit_params (b : List Byte) : (s.emit b).params = s.params := rfl
@[simp] theorem emit_store (b : List Byte) : (s.emit b).store = s.store := rfl
@[simp] theorem emit_frames (b : List Byte) : (s.emit b).frames = s.frames := rfl
@[simp] theorem emit_hostOps (b : List Byte) : (s.emit b).hostOps = s.hostOps := rfl
@[simp] theorem emit_inFlight (b : List Byte) : (s.emit b).inFlight = none := rfl
@[simp] theorem emit_outbound (b : List Byte) : (s.emit b).outbound = [] := rfl
@[simp] theorem emit_outcomes (b : List Byte) : (s.emit b).outcomes = s.outcomes ++ [.response b] := rfl
@[simp] theorem emit_results (b : List Byte) : (s.emit b).results = s.results := rfl
@[simp] theorem emit_turn (b : List Byte) : (s.emit b).turn = s.turn := rfl
@[simp] theorem emit_credit (b : List Byte) : (s.emit b).credit = s.credit := rfl
@[simp] theorem emit_draws (b : List Byte) : (s.emit b).draws = s.draws := rfl

@[simp] theorem drop_params : s.drop.params = s.params := rfl
@[simp] theorem drop_store : s.drop.store = s.store := rfl
@[simp] theorem drop_frames : s.drop.frames = s.frames := rfl
@[simp] theorem drop_hostOps : s.drop.hostOps = s.hostOps := rfl
@[simp] theorem drop_inFlight : s.drop.inFlight = none := rfl
@[simp] theorem drop_outbound : s.drop.outbound = [] := rfl
@[simp] theorem drop_outcomes : s.drop.outcomes = s.outcomes ++ [.dropped] := rfl
@[simp] theorem drop_results : s.drop.results = s.results := rfl
@[simp] theorem drop_turn : s.drop.turn = s.turn := rfl
@[simp] theorem drop_credit : s.drop.credit = s.credit := rfl
@[simp] theorem drop_draws : s.drop.draws = s.draws := rfl

/-! ### Ending a host operation -/

@[simp] theorem endHost_params (r : HostResult) : (s.endHost r).params = s.params := rfl
@[simp] theorem endHost_store (r : HostResult) : (s.endHost r).store = s.store := rfl
@[simp] theorem endHost_frames (r : HostResult) : (s.endHost r).frames = s.frames := rfl
@[simp] theorem endHost_hostOps (r : HostResult) : (s.endHost r).hostOps = s.hostOps := rfl
@[simp] theorem endHost_inFlight (r : HostResult) : (s.endHost r).inFlight = none := rfl
@[simp] theorem endHost_outbound (r : HostResult) : (s.endHost r).outbound = s.outbound := rfl
@[simp] theorem endHost_outcomes (r : HostResult) : (s.endHost r).outcomes = s.outcomes := rfl
@[simp] theorem endHost_results (r : HostResult) : (s.endHost r).results = s.results ++ [r] := rfl
@[simp] theorem endHost_turn (r : HostResult) : (s.endHost r).turn = s.turn := rfl
@[simp] theorem endHost_credit (r : HostResult) : (s.endHost r).credit = s.credit := rfl
@[simp] theorem endHost_draws (r : HostResult) : (s.endHost r).draws = s.draws := rfl

/-! ### Accepting an operation -/

@[simp] theorem accept_params (t : Transaction) : (s.accept t).params = s.params := rfl
@[simp] theorem accept_store (t : Transaction) : (s.accept t).store = s.store := rfl
@[simp] theorem accept_frames (t : Transaction) : (s.accept t).frames = s.frames := rfl
@[simp] theorem accept_hostOps (t : Transaction) : (s.accept t).hostOps = s.hostOps := rfl
@[simp] theorem accept_inFlight (t : Transaction) : (s.accept t).inFlight = some t := rfl
@[simp] theorem accept_outbound (t : Transaction) : (s.accept t).outbound = s.outbound := rfl
@[simp] theorem accept_outcomes (t : Transaction) : (s.accept t).outcomes = s.outcomes := rfl
@[simp] theorem accept_results (t : Transaction) : (s.accept t).results = s.results := rfl
@[simp] theorem accept_turn (t : Transaction) : (s.accept t).turn = s.turn := rfl
@[simp] theorem accept_credit (t : Transaction) : (s.accept t).credit = s.credit := rfl
@[simp] theorem accept_draws (t : Transaction) : (s.accept t).draws = s.draws := rfl

/-! ### The arbiter's charge for a grant -/

theorem chargeGrant_eq :
    s.chargeGrant = { s with turn := s.chargeGrant.turn, credit := s.chargeGrant.credit,
                             draws := s.chargeGrant.draws } := by
  unfold State.chargeGrant
  split <;> rfl

theorem chargeLone_eq (p : Port) :
    s.chargeLone p = { s with turn := (s.chargeLone p).turn, credit := (s.chargeLone p).credit,
                              draws := (s.chargeLone p).draws } := by
  unfold State.chargeLone
  split <;> rfl

@[simp] theorem chargeGrant_params : s.chargeGrant.params = s.params := by rw [chargeGrant_eq]
@[simp] theorem chargeGrant_store : s.chargeGrant.store = s.store := by rw [chargeGrant_eq]
@[simp] theorem chargeGrant_frames : s.chargeGrant.frames = s.frames := by rw [chargeGrant_eq]
@[simp] theorem chargeGrant_hostOps : s.chargeGrant.hostOps = s.hostOps := by rw [chargeGrant_eq]
@[simp] theorem chargeGrant_inFlight : s.chargeGrant.inFlight = s.inFlight := by rw [chargeGrant_eq]
@[simp] theorem chargeGrant_outbound : s.chargeGrant.outbound = s.outbound := by rw [chargeGrant_eq]
@[simp] theorem chargeGrant_outcomes : s.chargeGrant.outcomes = s.outcomes := by rw [chargeGrant_eq]
@[simp] theorem chargeGrant_results : s.chargeGrant.results = s.results := by rw [chargeGrant_eq]

@[simp] theorem chargeLone_params (p : Port) : (s.chargeLone p).params = s.params := by rw [chargeLone_eq]
@[simp] theorem chargeLone_store (p : Port) : (s.chargeLone p).store = s.store := by rw [chargeLone_eq]
@[simp] theorem chargeLone_frames (p : Port) : (s.chargeLone p).frames = s.frames := by rw [chargeLone_eq]
@[simp] theorem chargeLone_hostOps (p : Port) : (s.chargeLone p).hostOps = s.hostOps := by rw [chargeLone_eq]
@[simp] theorem chargeLone_inFlight (p : Port) : (s.chargeLone p).inFlight = s.inFlight := by rw [chargeLone_eq]
@[simp] theorem chargeLone_outbound (p : Port) : (s.chargeLone p).outbound = s.outbound := by rw [chargeLone_eq]
@[simp] theorem chargeLone_outcomes (p : Port) : (s.chargeLone p).outcomes = s.outcomes := by rw [chargeLone_eq]
@[simp] theorem chargeLone_results (p : Port) : (s.chargeLone p).results = s.results := by rw [chargeLone_eq]

/-- An uncontested grant never passes the turn on. -/
@[simp] theorem chargeLone_turn (p : Port) : (s.chargeLone p).turn = s.turn := by
  unfold State.chargeLone
  split <;> rfl

/-- While `p` has the turn, an uncontested grant to it costs nothing. -/
theorem chargeLone_of_turn (p : Port) (h : s.turn = p) : s.chargeLone p = s := if_pos h

/-! ### Inputs from outside -/

@[simp] theorem deliver_params (b : List Byte) : (s.deliver b).params = s.params := rfl
@[simp] theorem deliver_store (b : List Byte) : (s.deliver b).store = s.store := rfl
@[simp] theorem deliver_frames (b : List Byte) : (s.deliver b).frames = s.frames ++ [b] := rfl
@[simp] theorem deliver_hostOps (b : List Byte) : (s.deliver b).hostOps = s.hostOps := rfl
@[simp] theorem deliver_inFlight (b : List Byte) : (s.deliver b).inFlight = s.inFlight := rfl
@[simp] theorem deliver_outbound (b : List Byte) : (s.deliver b).outbound = s.outbound := rfl
@[simp] theorem deliver_outcomes (b : List Byte) : (s.deliver b).outcomes = s.outcomes := rfl
@[simp] theorem deliver_results (b : List Byte) : (s.deliver b).results = s.results := rfl
@[simp] theorem deliver_turn (b : List Byte) : (s.deliver b).turn = s.turn := rfl
@[simp] theorem deliver_credit (b : List Byte) : (s.deliver b).credit = s.credit := rfl
@[simp] theorem deliver_draws (b : List Byte) : (s.deliver b).draws = s.draws := rfl

@[simp] theorem issue_params (o : HostOp) : (s.issue o).params = s.params := rfl
@[simp] theorem issue_store (o : HostOp) : (s.issue o).store = s.store := rfl
@[simp] theorem issue_frames (o : HostOp) : (s.issue o).frames = s.frames := rfl
@[simp] theorem issue_hostOps (o : HostOp) : (s.issue o).hostOps = s.hostOps ++ [o] := rfl
@[simp] theorem issue_inFlight (o : HostOp) : (s.issue o).inFlight = s.inFlight := rfl
@[simp] theorem issue_outbound (o : HostOp) : (s.issue o).outbound = s.outbound := rfl
@[simp] theorem issue_outcomes (o : HostOp) : (s.issue o).outcomes = s.outcomes := rfl
@[simp] theorem issue_results (o : HostOp) : (s.issue o).results = s.results := rfl
@[simp] theorem issue_turn (o : HostOp) : (s.issue o).turn = s.turn := rfl
@[simp] theorem issue_credit (o : HostOp) : (s.issue o).credit = s.credit := rfl
@[simp] theorem issue_draws (o : HostOp) : (s.issue o).draws = s.draws := rfl

@[simp] theorem resetAgain_params (init : Nat → Word) : (s.resetAgain init).params = s.params := rfl
@[simp] theorem resetAgain_store (init : Nat → Word) : (s.resetAgain init).store = (List.range s.n).map init := rfl
@[simp] theorem resetAgain_frames (init : Nat → Word) : (s.resetAgain init).frames = [] := rfl
@[simp] theorem resetAgain_hostOps (init : Nat → Word) : (s.resetAgain init).hostOps = [] := rfl
@[simp] theorem resetAgain_inFlight (init : Nat → Word) : (s.resetAgain init).inFlight = none := rfl
@[simp] theorem resetAgain_outbound (init : Nat → Word) : (s.resetAgain init).outbound = [] := rfl
@[simp] theorem resetAgain_outcomes (init : Nat → Word) : (s.resetAgain init).outcomes = [] := rfl
@[simp] theorem resetAgain_results (init : Nat → Word) : (s.resetAgain init).results = [] := rfl

/-! ### N -/

theorem n_eq : s.n = s.store.length := rfl
@[simp] theorem writeWord_n (i : Nat) (v : Word) : (s.writeWord i v).n = s.n := by simp [State.n]
@[simp] theorem emit_n (b : List Byte) : (s.emit b).n = s.n := rfl
@[simp] theorem drop_n : s.drop.n = s.n := rfl
@[simp] theorem endHost_n (r : HostResult) : (s.endHost r).n = s.n := rfl
@[simp] theorem accept_n (t : Transaction) : (s.accept t).n = s.n := rfl
@[simp] theorem chargeGrant_n : s.chargeGrant.n = s.n := by simp [State.n]
@[simp] theorem chargeLone_n (p : Port) : (s.chargeLone p).n = s.n := by simp [State.n]
@[simp] theorem deliver_n (b : List Byte) : (s.deliver b).n = s.n := rfl
@[simp] theorem issue_n (o : HostOp) : (s.issue o).n = s.n := rfl
@[simp] theorem resetAgain_n (init : Nat → Word) : (s.resetAgain init).n = s.n := by simp [State.n]

end

end Sys2Proof.Machine
end

