-- ==== Sys2Proof/Laws/Store.lean ====
section
/-!
SUPPORT. The laws of the store: a read after a write to the same word gives the value written, a write leaves every
other word alone, and the multi-word forms say the same word by word (R30, R68, R225, R233).
-/

namespace Sys2Proof.Machine

section
variable (s : State)

theorem readWord_writeWord_same (i : Nat) (v : Word) (h : i < s.n) : (s.writeWord i v).readWord i = v := by
  have h' : i < s.store.length := h
  simp [State.readWord, h']

theorem readWord_writeWord_other (i j : Nat) (v : Word) (h : i ≠ j) :
    (s.writeWord i v).readWord j = s.readWord j := by
  simp [State.readWord, List.getElem?_set_ne h]

/-- Writing words changes only the store, and keeps its length. -/
theorem writeWords_eq (i : Nat) (ws : List Word) :
    s.writeWords i ws = { s with store := (s.writeWords i ws).store } ∧
      (s.writeWords i ws).store.length = s.store.length := by
  induction ws generalizing s i with
  | nil => exact ⟨rfl, rfl⟩
  | cons w ws ih =>
    obtain ⟨h1, h2⟩ := ih (s.writeWord i w) (i + 1)
    refine ⟨?_, by rw [State.writeWords, h2]; simp⟩
    rw [State.writeWords, h1]
    rfl

@[simp] theorem writeWords_n (i : Nat) (ws : List Word) : (s.writeWords i ws).n = s.n :=
  (writeWords_eq s i ws).2

@[simp] theorem writeWords_params (i : Nat) (ws : List Word) : (s.writeWords i ws).params = s.params := by
  rw [(writeWords_eq s i ws).1]
@[simp] theorem writeWords_frames (i : Nat) (ws : List Word) : (s.writeWords i ws).frames = s.frames := by
  rw [(writeWords_eq s i ws).1]
@[simp] theorem writeWords_hostOps (i : Nat) (ws : List Word) : (s.writeWords i ws).hostOps = s.hostOps := by
  rw [(writeWords_eq s i ws).1]
@[simp] theorem writeWords_inFlight (i : Nat) (ws : List Word) : (s.writeWords i ws).inFlight = s.inFlight := by
  rw [(writeWords_eq s i ws).1]
@[simp] theorem writeWords_outbound (i : Nat) (ws : List Word) : (s.writeWords i ws).outbound = s.outbound := by
  rw [(writeWords_eq s i ws).1]
@[simp] theorem writeWords_outcomes (i : Nat) (ws : List Word) : (s.writeWords i ws).outcomes = s.outcomes := by
  rw [(writeWords_eq s i ws).1]
@[simp] theorem writeWords_results (i : Nat) (ws : List Word) : (s.writeWords i ws).results = s.results := by
  rw [(writeWords_eq s i ws).1]
@[simp] theorem writeWords_turn (i : Nat) (ws : List Word) : (s.writeWords i ws).turn = s.turn := by
  rw [(writeWords_eq s i ws).1]
@[simp] theorem writeWords_credit (i : Nat) (ws : List Word) : (s.writeWords i ws).credit = s.credit := by
  rw [(writeWords_eq s i ws).1]
@[simp] theorem writeWords_draws (i : Nat) (ws : List Word) : (s.writeWords i ws).draws = s.draws := by
  rw [(writeWords_eq s i ws).1]

/-- Every word after writing words: those in the range are the words written, in order, and the rest are as before. -/
theorem readWord_writeWords (i : Nat) (ws : List Word) (h : i + ws.length ≤ s.n) (j : Nat) :
    (s.writeWords i ws).readWord j =
      if i ≤ j ∧ j < i + ws.length then ws.getD (j - i) 0 else s.readWord j := by
  induction ws generalizing s i with
  | nil => rw [State.writeWords, if_neg (by simp)]
  | cons w ws ih =>
    simp only [List.length_cons] at h
    rw [State.writeWords, ih (s.writeWord i w) (i + 1) (by simpa using by omega)]
    rcases Nat.lt_trichotomy j i with hlt | rfl | hgt
    · have h1 : ¬ (i + 1 ≤ j ∧ j < i + 1 + ws.length) := by omega
      have h2 : ¬ (i ≤ j ∧ j < i + (ws.length + 1)) := by omega
      simp only [h1, h2, if_false, List.length_cons]
      exact readWord_writeWord_other s i j w (by omega)
    · have h1 : ¬ (j + 1 ≤ j ∧ j < j + 1 + ws.length) := by omega
      have h2 : j ≤ j ∧ j < j + (ws.length + 1) := by omega
      simp only [h1, h2, if_false, List.length_cons]
      simpa using readWord_writeWord_same s j w (by omega)
    · have e : j - i = (j - (i + 1)) + 1 := by omega
      by_cases h1 : i + 1 ≤ j ∧ j < i + 1 + ws.length
      · have h2 : i ≤ j ∧ j < i + (ws.length + 1) := by omega
        rw [if_pos h1, List.length_cons, if_pos h2, e]
        simp
      · have h2 : ¬ (i ≤ j ∧ j < i + (ws.length + 1)) := by omega
        rw [if_neg h1, List.length_cons, if_neg h2]
        exact readWord_writeWord_other s i j w (by omega)

/-- Writing words leaves every word outside their range as it was. -/
theorem readWord_writeWords_outside (i : Nat) (ws : List Word) (h : i + ws.length ≤ s.n) (j : Nat)
    (out : j < i ∨ i + ws.length ≤ j) : (s.writeWords i ws).readWord j = s.readWord j := by
  rw [readWord_writeWords s i ws h, if_neg (by omega)]

/-- Reading words takes a slice of the store (R222). -/
theorem readWords_eq_slice (i q : Nat) (h : i + q ≤ s.n) : s.readWords i q = (s.store.drop i).take q := by
  have h' : i + q ≤ s.store.length := h
  apply List.ext_getElem
  · simp [State.readWords]; omega
  · intro k hk1 hk2
    have : k < q := by simpa [State.readWords] using hk1
    simp [State.readWords, State.readWord, List.getElem?_eq_getElem (show i + k < s.store.length by omega)]

@[simp] theorem readWords_length (i q : Nat) : (s.readWords i q).length = q := by simp [State.readWords]

@[simp] theorem dataWords_length (data : List Byte) (q : Nat) : (dataWords data q).length = q := by
  simp [dataWords]

theorem dataWords_getD (data : List Byte) (q k : Nat) (h : k < q) :
    (dataWords data q).getD k 0 = dataWord data k := by
  simp [dataWords, h]

@[simp] theorem writeDouble_n (i : Nat) (v : DWord) : (s.writeDouble i v).n = s.n := by
  simp [State.writeDouble]

theorem writeDouble_eq_writeWords (i : Nat) (v : DWord) :
    s.writeDouble i v = s.writeWords i [lowWord v, highWord v] := rfl

/-- A 32-bit value read back is the value written (R68, R149). -/
theorem readDouble_writeDouble_same (i : Nat) (v : DWord) (h : i + 1 < s.n) :
    (s.writeDouble i v).readDouble i = v := by
  rw [writeDouble_eq_writeWords, State.readDouble, readWord_writeWords _ _ _ (by simpa using by omega),
    readWord_writeWords _ _ _ (by simpa using by omega)]
  simp

/-! ### Addresses -/

theorem index_eq (a : Word) : index a = (a.toNat : Int) - 40001 := rfl

theorem slot_eq (a : Word) : slot a = a.toNat - 40001 := by
  rw [slot, index_eq]; omega

theorem valid16_iff (n : Nat) (a : Word) : valid16 n a ↔ 40001 ≤ a.toNat ∧ slot a < n := by
  rw [slot_eq, valid16, index_eq]; omega

theorem valid32_iff (n : Nat) (a : Word) : valid32 n a ↔ 40001 ≤ a.toNat ∧ slot a + 1 < n := by
  rw [slot_eq, valid32, index_eq]; omega

theorem validRange_iff (n : Nat) (a : Word) (q : Nat) :
    validRange n a q ↔ 40001 ≤ a.toNat ∧ slot a + q ≤ n := by
  rw [slot_eq, validRange, index_eq]; omega

end

end Sys2Proof.Machine
end

