-- ==== Sys2Proof/Laws/Step.lean ====
section
/-!
SUPPORT. What a transaction can do, said once: the inversion lemmas of the meanings, of taking the next operation, and
of the step, which the proofs cite instead of unfolding them.
-/

namespace Sys2Proof.Machine

section
variable (s : State)

/-! ### Raising an exception -/

theorem raise_quantityMismatch (h : Header) (fc : Byte) :
    s.raise h fc .quantityMismatch = s.emit (frameBytes s.params h (fc ||| 0x80) [3]) := rfl

theorem raise_addressOutOfRange (h : Header) (fc : Byte) :
    s.raise h fc .addressOutOfRange = s.emit (frameBytes s.params h (fc ||| 0x80) [2]) := rfl

theorem raise_unsupportedFunction (h : Header) (fc : Byte) :
    s.raise h fc .unsupportedFunction = s.emit (frameBytes s.params h (fc ||| 0x80) [1]) := rfl

/-- Emitting a response is answering it, and nothing else. -/
theorem emit_eq_answered (b : List Byte) : s.emit b = s.answered b := rfl

/-- Ending a host operation is returning its result, and nothing else. -/
theorem endHost_eq_returned (r : HostResult) : s.endHost r = s.returned r := rfl

/-- Taking an exception answers the nine bytes of R283, and nothing else. -/
theorem emit_exception (h : Header) (fc code : Byte) :
    s.emit (frameBytes s.params h (fc ||| 0x80) [code]) = s.answered (exceptionFrame s.params h fc code) := by
  rw [frameBytes_small _ _ _ _ (by simp)]
  rfl

theorem twoWordFrame_eq (p : Params) (h : Header) (fc : Byte) (x y : Word) :
    twoWordFrame p h fc x y = frameBytes p h fc (wordBytes x ++ wordBytes y) := by
  rw [frameBytes_small _ _ _ _ (by simp [wordBytes])]
  rfl

theorem bit7_set (fc : Byte) : 0x80 ≤ fc ||| 0x80 := by
  rw [BitVec.le_def, BitVec.toNat_or]
  exact Nat.right_le_or

/-! ### What a protocol instruction can answer -/

/-- The response a protocol instruction ends with, beside the words it writes: data after a read, an echo after a write
of all its words, an exception after no write. -/
inductive Answer (i : Instr) (s : State) (hdr : Header) : List Word → Byte → List Byte → Prop
  | read (fc : Byte) (q : Nat) (data : List Byte) (hfc : fc = 0x03 ∨ fc = 0x04) (hq : 1 ≤ q ∧ q ≤ s.n)
      (hlen : data.length = 2 * q) : Answer i s hdr [] fc (BitVec.ofNat 8 (2 * q) :: data)
  | wrote (ws : List Word) (fc : Byte) (x y : Word) (hfc : fc = 0x06 ∨ fc = 0x10)
      (hlen : ws.length = i.written.2) (hfit : i.written.1 + ws.length ≤ s.n) :
      Answer i s hdr ws fc (wordBytes x ++ wordBytes y)
  | raised (fc : Byte) (code : Byte) (hcode : code = 1 ∨ code = 2 ∨ code = 3) :
      Answer i s hdr [] (fc ||| 0x80) [code]

/-- What an answer can be depends on the store's length alone. -/
theorem Answer.congr {i : Instr} {s s' : State} {hdr : Header} {ws : List Word} {fc : Byte} {pl : List Byte}
    (hn : s.n = s'.n) (h : Answer i s hdr ws fc pl) : Answer i s' hdr ws fc pl := by
  cases h with
  | read _ q _ hfc hq hlen => exact .read _ q _ hfc (hn ▸ hq) hlen
  | wrote _ _ x y hfc hlen hfit => exact .wrote _ _ x y hfc hlen (hn ▸ hfit)
  | raised _ _ hcode => exact .raised _ _ hcode

theorem readRegisters_cases (i : Instr) (hdr : Header) (fc : Byte) (hfc : fc = 0x03 ∨ fc = 0x04) (a q : Word) :
    ∃ ws fcOut pl, readRegisters hdr fc a q s =
        .next ((s.writeWords i.written.1 ws).emit (frameBytes s.params hdr fcOut pl)) ∧
      Answer i s hdr ws fcOut pl := by
  unfold readRegisters
  split
  · exact ⟨[], _, _, rfl, .raised fc 3 (by simp)⟩
  · rename_i hq
    split
    · rename_i hv
      obtain ⟨-, hv⟩ := (validRange_iff _ _ _).mp hv
      refine ⟨[], _, _, rfl, .read fc q.toNat _ hfc ⟨?_, by omega⟩ (by simp [wordsToBytes_length])⟩
      have : q.toNat ≠ 0 := fun h => hq (BitVec.eq_of_toNat_eq h)
      omega
    · exact ⟨[], _, _, rfl, .raised fc 2 (by simp)⟩

/-- Every protocol instruction answers a next state: some words written, then one response. -/
theorem exec_protocol_cases (i : Instr) (hdr : Header) (hi : i.header? = some hdr) :
    ∃ ws fc pl, exec i s = .next ((s.writeWords i.written.1 ws).emit (frameBytes s.params hdr fc pl)) ∧
      Answer i s hdr ws fc pl := by
  cases i with
  | readHoldingRegisters h a q => cases hi; exact readRegisters_cases s _ _ _ (by simp) a q
  | readHoldingRegisters04 h a q => cases hi; exact readRegisters_cases s _ _ _ (by simp) a q
  | writeSingleRegister h a v =>
    cases hi
    simp only [exec, execWriteSingleRegister]
    split
    · rename_i hv
      obtain ⟨-, hv⟩ := (valid16_iff _ _).mp hv
      exact ⟨[v], _, _, rfl, .wrote _ _ a v (by simp) rfl (by simpa [Instr.written] using hv)⟩
    · exact ⟨[], _, _, rfl, .raised 0x06 2 (by simp)⟩
  | writeMultipleRegisters h a q bc data =>
    cases hi
    simp only [exec, execWriteMultipleRegisters]
    split
    · exact ⟨[], _, _, rfl, .raised 0x10 3 (by simp)⟩
    · split
      · exact ⟨[], _, _, rfl, .raised 0x10 3 (by simp)⟩
      · split
        · rename_i hv
          obtain ⟨-, hv⟩ := (validRange_iff _ _ _).mp hv
          exact ⟨dataWords data q.toNat, _, _, rfl, .wrote _ _ a q (by simp) (by simp [Instr.written])
            (by simpa [Instr.written] using hv)⟩
        · exact ⟨[], _, _, rfl, .raised 0x10 2 (by simp)⟩
  | illegalFunction h fc payload => cases hi; exact ⟨[], _, _, rfl, .raised fc 1 (by simp)⟩
  | getU16 a => cases hi
  | setU16 a w => cases hi
  | getU32 a => cases hi
  | setU32 a w => cases hi
  | getFloat a => cases hi
  | setFloat a w => cases hi
  | hostReserved r a w => cases hi

/-! ### What a host operation can answer -/

/-- A host operation refuses only for a reserved code; otherwise it writes words, or none, and returns one result. -/
theorem exec_host_cases (i : Instr) (hi : i.header? = none) :
    (∃ r a w, i = .hostReserved r a w) ∨
      ∃ ws r, exec i s = .next ((s.writeWords i.written.1 ws).endHost r) ∧
        (ws = [] ∨ (ws.length = i.written.2 ∧ i.written.1 + ws.length ≤ s.n ∧ r = .ok)) := by
  cases i with
  | readHoldingRegisters h a q => cases hi
  | readHoldingRegisters04 h a q => cases hi
  | writeSingleRegister h a v => cases hi
  | writeMultipleRegisters h a q bc data => cases hi
  | illegalFunction h fc payload => cases hi
  | hostReserved r a w => exact .inl ⟨r, a, w, rfl⟩
  | getU16 a =>
    refine .inr ?_
    simp only [exec, execGetU16]
    split
    · exact ⟨[], _, rfl, .inl rfl⟩
    · exact ⟨[], _, rfl, .inl rfl⟩
  | setU16 a w =>
    refine .inr ?_
    simp only [exec, execSetU16]
    split
    · rename_i hv
      obtain ⟨-, hv⟩ := (valid16_iff _ _).mp hv
      exact ⟨[lowWord w], _, rfl, .inr ⟨rfl, by simpa [Instr.written] using hv, rfl⟩⟩
    · exact ⟨[], _, rfl, .inl rfl⟩
  | getU32 a =>
    refine .inr ?_
    simp only [exec, execGetU32, read32]
    split
    · exact ⟨[], _, rfl, .inl rfl⟩
    · exact ⟨[], _, rfl, .inl rfl⟩
  | setU32 a w =>
    refine .inr ?_
    simp only [exec, execSetU32, write32]
    split
    · rename_i hv
      obtain ⟨-, hv⟩ := (valid32_iff _ _).mp hv
      exact ⟨[lowWord w, highWord w], _, rfl, .inr ⟨rfl, by simp [Instr.written]; omega, rfl⟩⟩
    · exact ⟨[], _, rfl, .inl rfl⟩
  | getFloat a =>
    refine .inr ?_
    simp only [exec, execGetFloat]
    split
    · exact ⟨[], _, rfl, .inl rfl⟩
    · exact ⟨[], _, rfl, .inl rfl⟩
  | setFloat a w =>
    refine .inr ?_
    simp only [exec, execSetFloat, write32]
    split
    · rename_i hv
      obtain ⟨-, hv⟩ := (valid32_iff _ _).mp hv
      exact ⟨[lowWord w, highWord w], _, rfl, .inr ⟨rfl, by simp [Instr.written]; omega, rfl⟩⟩
    · exact ⟨[], _, rfl, .inl rfl⟩

/-- The words a protocol instruction writes are none, or all it names and inside the store (R31, R229). -/
theorem Answer.words {i : Instr} {s : State} {hdr : Header} {ws : List Word} {fc : Byte} {pl : List Byte}
    (h : Answer i s hdr ws fc pl) : ws = [] ∨ ws.length = i.written.2 ∧ i.written.1 + ws.length ≤ s.n := by
  cases h with
  | read _ _ _ _ _ _ => exact .inl rfl
  | wrote _ _ _ _ _ hlen hfit => exact .inr ⟨hlen, hfit⟩
  | raised _ _ _ => exact .inl rfl

/-- What writing such words leaves: the store's length, and every word the instruction does not name. -/
theorem writeWords_frame (i : Instr) (ws : List Word)
    (hws : ws = [] ∨ ws.length = i.written.2 ∧ i.written.1 + ws.length ≤ s.n) :
    (s.writeWords i.written.1 ws).store.length = s.store.length ∧
      (i.written.2 = 0 → (s.writeWords i.written.1 ws).store = s.store) ∧
      ∀ j, (j < i.written.1 ∨ i.written.1 + i.written.2 ≤ j) →
        (s.writeWords i.written.1 ws).readWord j = s.readWord j := by
  refine ⟨writeWords_n s _ _, ?_, ?_⟩
  · intro h0
    obtain rfl : ws = [] := hws.elim id fun h => List.length_eq_zero_iff.mp (by omega)
    rfl
  · intro j out
    rcases hws with rfl | ⟨h1, h2⟩
    · rfl
    · exact readWord_writeWords_outside s _ _ h2 j (by omega)

/-! ### Taking the next operation -/

/-- `s₁` is `s` but for the arbiter's own three fields. -/
def SameButArbiter (s s₁ : State) : Prop :=
  s₁ = { s with turn := s₁.turn, credit := s₁.credit, draws := s₁.draws }

/-- What such a state keeps. -/
theorem SameButArbiter.fields {s s₁ : State} (h : SameButArbiter s s₁) :
    s₁.params = s.params ∧ s₁.store = s.store ∧ s₁.frames = s.frames ∧ s₁.hostOps = s.hostOps ∧
      s₁.inFlight = s.inFlight ∧ s₁.outbound = s.outbound ∧ s₁.outcomes = s.outcomes ∧ s₁.results = s.results ∧
      s₁.n = s.n := by
  rw [h]
  exact ⟨rfl, rfl, rfl, rfl, rfl, rfl, rfl, rfl, rfl⟩

/-- What the arbiter takes from an idle core: the oldest frame, or the oldest host operation, with nothing else changed
but the arbiter's own fields. -/
theorem select_cases (t : Transaction) (s' : State) (idle : s.inFlight = none) (h : s.select = some (t, s')) :
    ∃ s₁, SameButArbiter s s₁ ∧
      ((∃ b bs, s.frames = b :: bs ∧ t = .frame b ∧ s' = { s₁ with frames := bs }) ∨
        (∃ o os, s.hostOps = o :: os ∧ t = .hostOp o ∧ s' = { s₁ with hostOps := os })) := by
  unfold State.select at h
  simp only [idle] at h
  split at h
  · cases h
  · rename_i b bs hf ho
    cases h
    exact ⟨_, chargeLone_eq s .protocol, .inl ⟨b, bs, hf, rfl, rfl⟩⟩
  · rename_i o os hf ho
    cases h
    exact ⟨_, chargeLone_eq s .host, .inr ⟨o, os, ho, rfl, rfl⟩⟩
  · rename_i b bs o os hf ho
    split at h
    · cases h
      exact ⟨_, chargeGrant_eq s, .inl ⟨b, bs, hf, rfl, rfl⟩⟩
    · cases h
      exact ⟨_, chargeGrant_eq s, .inr ⟨o, os, ho, rfl, rfl⟩⟩

/-- Nothing is taken exactly when nothing is pending. -/
theorem select_eq_none (idle : s.inFlight = none) : s.select = none ↔ s.frames = [] ∧ s.hostOps = [] := by
  unfold State.select
  simp only [idle]
  split
  · simp_all
  · simp_all
  · simp_all
  · rename_i hf ho
    split <;> simp [hf]

/-! ### The step -/

/-- The decoder gives a protocol instruction for a frame, with the frame's opaque bytes. -/
theorem header_of_decodeFrame (p : Params) (b : List Byte) (i : Instr) (h : decodeFrame p b = .ok i) :
    ∃ fr, decodeADU p b = .ok fr ∧ parsePDU fr = .ok i ∧ i.header? = some fr.hdr := by
  unfold decodeFrame at h
  split at h
  · cases h
  · rename_i fr hfr
    refine ⟨fr, hfr, h, ?_⟩
    unfold parsePDU parseTwoWords parseWriteN at h
    repeat' split at h
    all_goals first | (cases h; rfl) | cases h

theorem header_of_decodeHostOp (o : HostOp) : (decodeHostOp o).header? = none := by
  unfold decodeHostOp
  repeat' split
  all_goals rfl

/-- A whole protocol transaction: one outcome, and the words it wrote (R220, R231). -/
theorem runFrame_cases (b : List Byte) :
    (runTransaction (.frame b) s = .next s.drop ∧ ∃ e, decodeFrame s.params b = .error e) ∨
      ∃ i hdr ws fc pl, decodeFrame s.params b = .ok i ∧ i.header? = some hdr ∧
        runTransaction (.frame b) s =
          .next (((s.accept (.frame b)).writeWords i.written.1 ws).emit (frameBytes s.params hdr fc pl)) ∧
        Answer i s hdr ws fc pl := by
  unfold runTransaction decode
  split
  · rename_i e h
    exact .inl ⟨rfl, e, h⟩
  · rename_i i h
    obtain ⟨fr, -, -, hh⟩ := header_of_decodeFrame _ _ _ h
    obtain ⟨ws, fc, pl, h1, h2⟩ := exec_protocol_cases (s.accept (.frame b)) i fr.hdr hh
    refine .inr ⟨i, fr.hdr, ws, fc, pl, h, hh, h1, ?_⟩
    cases h2 with
    | read _ q _ hfc hq hlen => exact .read _ q _ hfc hq hlen
    | wrote _ _ x y hfc hlen hfit => exact .wrote _ _ x y hfc hlen hfit
    | raised _ _ hcode => exact .raised _ _ hcode

/-- A whole host operation: a refusal for a reserved code, else one result, and the words it wrote. -/
theorem runHostOp_cases (o : HostOp) :
    ((∃ r a w, decodeHostOp o = .hostReserved r a w) ∧ ∃ r, runTransaction (.hostOp o) s = .refused r) ∨
      ∃ ws r, runTransaction (.hostOp o) s =
          .next (((s.accept (.hostOp o)).writeWords (decodeHostOp o).written.1 ws).endHost r) ∧
        (ws = [] ∨ (ws.length = (decodeHostOp o).written.2 ∧
          (decodeHostOp o).written.1 + ws.length ≤ s.n ∧ r = .ok)) := by
  rcases exec_host_cases (s.accept (.hostOp o)) _ (header_of_decodeHostOp o) with ⟨r, a, w, h⟩ | ⟨ws, r, h⟩
  · exact .inl ⟨⟨r, a, w, h⟩, _, by rw [runTransaction, decode]; simp only [h]; rfl⟩
  · exact .inr ⟨ws, r, h⟩

/-- The only host operations that decode to HOST_RESERVED are those with op code 110 and 111 (R148). -/
theorem decodeHostOp_reserved (o : HostOp) (h : ∃ r a w, decodeHostOp o = .hostReserved r a w) :
    (o.op = 6 ∨ o.op = 7) ∧ decodeHostOp o = .hostReserved (o.op.getLsbD 0) o.addr o.wdata ∧
      (if o.op.getLsbD 0 then 0b111 else 0b110) = o.op := by
  obtain ⟨r, a, w, h⟩ := h
  obtain ⟨op, ad, wd⟩ := o
  have codes : ∀ x : BitVec 3, x = 0 ∨ x = 1 ∨ x = 2 ∨ x = 3 ∨ x = 4 ∨ x = 5 ∨ x = 6 ∨ x = 7 := by decide
  rcases codes op with rfl | rfl | rfl | rfl | rfl | rfl | rfl | rfl <;> simp [decodeHostOp] at h ⊢

/-- Everything a step from an idle core can do when it answers a next state: nothing, when nothing is pending; else it
takes one frame, and drops it or writes words and emits one response; or it takes one host operation, and writes words
and returns one result. `s₁` is `s` but for the arbiter's own fields. -/
theorem step_idle_cases (t : State) (idle : s.inFlight = none) (h : step s = .next t) :
    (t = s ∧ s.frames = [] ∧ s.hostOps = []) ∨
    ∃ s₁, SameButArbiter s s₁ ∧
      ((∃ b bs, s.frames = b :: bs ∧
          (t = ({ s₁ with frames := bs } : State).drop ∨
            ∃ i hdr ws fc pl, i.header? = some hdr ∧ Answer i s hdr ws fc pl ∧
              t = ((({ s₁ with frames := bs } : State).accept (.frame b)).writeWords i.written.1 ws).emit
                (frameBytes s.params hdr fc pl))) ∨
        (∃ o os, s.hostOps = o :: os ∧ ∃ k ws r,
          t = ((({ s₁ with hostOps := os } : State).accept (.hostOp o)).writeWords k ws).endHost r)) := by
  cases hs : s.select with
  | none =>
    rw [step, hs] at h
    cases h
    exact .inl ⟨rfl, (select_eq_none s idle).mp hs⟩
  | some x =>
    obtain ⟨x, s'⟩ := x
    rw [step, hs] at h
    obtain ⟨s₁, h1, h2⟩ := select_cases s x s' idle hs
    refine .inr ⟨s₁, h1, ?_⟩
    obtain ⟨hp, -, -, -, -, -, -, -, hn⟩ := h1.fields
    rcases h2 with ⟨b, bs, hf, rfl, rfl⟩ | ⟨o, os, hf, rfl, rfl⟩
    · refine .inl ⟨b, bs, hf, ?_⟩
      rcases runFrame_cases { s₁ with frames := bs } b with ⟨h3, -⟩ | ⟨i, hdr, ws, fc, pl, -, hh, h3, ha⟩
      · simp only at h
        rw [h3] at h
        cases h
        exact .inl rfl
      · simp only at h
        rw [h3] at h
        cases h
        exact .inr ⟨i, hdr, ws, fc, pl, hh, ha.congr (show ({ s₁ with frames := bs } : State).n = s.n from hn),
          by simp [hp]⟩
    · refine .inr ⟨o, os, hf, ?_⟩
      rcases runHostOp_cases { s₁ with hostOps := os } o with ⟨-, r, h3⟩ | ⟨ws, r, h3, -⟩
      · simp only at h
        rw [h3] at h
        cases h
      · simp only at h
        rw [h3] at h
        cases h
        exact ⟨_, _, _, rfl⟩

theorem run_succ (k : Nat) :
    run (k + 1) s =
      match step s with
      | .next s' => run k s'
      | .fault r => .fault r
      | .refused r => .refused r := rfl

end

end Sys2Proof.Machine
end

