-- ==== Sys2Proof/Tests/Slice0.lean ====
section
/-!
SUPPORT. Small tests of the model, and the witnesses of the statements. Expected bytes, results and words are those of
spec/95_test_vectors.md (the vector's number stands beside the test) or are written out from the encodings of
spec/30_encoding.md. Each witness shows concrete values that meet the hypotheses of one statement together, at the
boundaries of every clause.
-/

namespace Sys2Proof.Tests

open Sys2Proof.Machine

/-! ### Helpers -/

/-- The default build (95, header) with the start store of RH1, HP7 and M4: `s[0] = 0x0020`, `s[1] = 0xF147`,
`s[31] = 0x5555`, and an arbiter that favours the host. -/
def demo : State :=
  { State.resetWith Config.params 32 (fun i =>
      if i = 0 then 0x0020 else if i = 1 then 0xF147 else if i = 31 then 0x5555 else 0) with
    credit := 0, draws := 0 }

/-- The same in the standard's LEN_MODE (95 L2.8). -/
def demoStandard : State := { demo with params := { lenMode := .afterLengthField, maxAdu := 260 } }

/-- A build with one store word, 0x0042 (HP14, HP15), and the smallest buffer. -/
def demoOne : State :=
  { State.resetWith { lenMode := .afterUnitId, maxAdu := 12 } 1 (fun _ => 0x0042) with credit := 0, draws := 0 }

/-- The last outcome of the protocol port, when the machine goes on. -/
def outcome : Host.Outcome State Fault Refusal → Option ProtocolOutcome
  | .next s => s.outcomes.getLast?
  | .fault _ => none
  | .refused _ => none

/-- The last result of the host port, when the machine goes on. -/
def result : Host.Outcome State Fault Refusal → Option HostResult
  | .next s => s.results.getLast?
  | .fault _ => none
  | .refused _ => none

/-- Some words of the store, when the machine goes on. -/
def words (is : List Nat) : Host.Outcome State Fault Refusal → Option (List Word)
  | .next s => some (is.map s.readWord)
  | .fault _ => none
  | .refused _ => none

/-- The machine goes on. -/
def goesOn : Host.Outcome State Fault Refusal → Bool
  | .next _ => true
  | .fault _ => false
  | .refused _ => false

/-- One step on a frame. -/
def onFrame (s : State) (b : List Byte) : Host.Outcome State Fault Refusal := step (s.deliver b)

/-- One step on a host operation. -/
def onHost (s : State) (op : BitVec 3) (addr : Word) (wdata : DWord) : Host.Outcome State Fault Refusal :=
  step (s.issue { op := op, addr := addr, wdata := wdata })

/-- TID 00 01, UID 01. -/
def hdr1 : Header := { tid0 := 0, tid1 := 1, uid := 1 }

/-! ### WellFormed refuses an ill-formed term at each of its checks -/

/-- A read does not fit an illegal buffer of 11 bytes, and fits the smallest legal one, 12. -/
theorem test_wellFormed_read_fits_buffer :
    Instr.wellFormed { lenMode := .afterUnitId, maxAdu := 11 } (.readHoldingRegisters hdr1 40001 1) = false ∧
    Instr.wellFormed { lenMode := .afterUnitId, maxAdu := 11 } (.readHoldingRegisters04 hdr1 40001 1) = false ∧
    Instr.wellFormed { lenMode := .afterUnitId, maxAdu := 12 } (.readHoldingRegisters hdr1 40001 1) = true := by
  decide

theorem test_wellFormed_write_fits_buffer :
    Instr.wellFormed { lenMode := .afterUnitId, maxAdu := 11 } (.writeSingleRegister hdr1 40001 1) = false ∧
    Instr.wellFormed { lenMode := .afterUnitId, maxAdu := 14 }
      (.writeMultipleRegisters hdr1 40001 1 2 [0x12, 0x34]) = false := by decide

/-- The byte count counts the data: one byte missing, one too many. -/
theorem test_wellFormed_byte_count :
    Instr.wellFormed Config.params (.writeMultipleRegisters hdr1 40001 1 2 [0x12]) = false ∧
    Instr.wellFormed Config.params (.writeMultipleRegisters hdr1 40001 1 2 [0x12, 0x34, 0x56]) = false ∧
    Instr.wellFormed Config.params (.writeMultipleRegisters hdr1 40001 1 2 [0x12, 0x34]) = true := by decide

/-- None of the four supported codes is an illegal function. -/
theorem test_wellFormed_illegal_function_code :
    Instr.wellFormed Config.params (.illegalFunction hdr1 0x03 []) = false ∧
    Instr.wellFormed Config.params (.illegalFunction hdr1 0x10 []) = false ∧
    Instr.wellFormed Config.params (.illegalFunction hdr1 0x05 []) = true := by decide

theorem test_wellFormed_illegal_function_fits_buffer :
    Instr.wellFormed { lenMode := .afterUnitId, maxAdu := 12 } (.illegalFunction hdr1 0x05 [1, 2, 3, 4, 5]) = false ∧
    Instr.wellFormed { lenMode := .afterUnitId, maxAdu := 12 } (.illegalFunction hdr1 0x05 [1, 2, 3, 4]) = true := by
  decide

/-- The one payload length whose length field does not fit 16 bits: 65534 bytes, in the standard's mode (log 12). -/
theorem test_wellFormed_length_field (payload : List Byte) (h : payload.length = 65534) :
    Instr.wellFormed { lenMode := .afterLengthField, maxAdu := 65542 } (.illegalFunction hdr1 0x05 payload) = false ∧
    Instr.wellFormed { lenMode := .afterUnitId, maxAdu := 65542 } (.illegalFunction hdr1 0x05 payload) = true := by
  simp [Instr.wellFormed, supportedFunctions, lenOf, h]

/-! ### Decoding, from words written out (R90, R93, R101) -/

/-- Each of the five rows of the protocol port, from a frame written out byte by byte: RH1, RI4, L1.5, L1.6, L1.7. -/
theorem test_decode_frames :
    decodeFrame Config.params [0x00, 0x03, 0x00, 0x00, 0x00, 0x05, 0x01, 0x03, 0x9C, 0x41, 0x00, 0x02] =
      .ok (.readHoldingRegisters { tid0 := 0, tid1 := 3, uid := 1 } 40001 2) ∧
    decodeFrame Config.params [0x00, 0x07, 0x00, 0x00, 0x00, 0x05, 0x01, 0x04, 0x9C, 0x41, 0x00, 0x02] =
      .ok (.readHoldingRegisters04 { tid0 := 0, tid1 := 7, uid := 1 } 40001 2) ∧
    decodeFrame Config.params [0x12, 0x34, 0x00, 0x00, 0x00, 0x05, 0x7F, 0x06, 0x9C, 0x50, 0x80, 0x00] =
      .ok (.writeSingleRegister { tid0 := 0x12, tid1 := 0x34, uid := 0x7F } 40016 0x8000) ∧
    decodeFrame Config.params
        [0x00, 0x02, 0x00, 0x00, 0x00, 0x0A, 0x01, 0x10, 0x9C, 0x41, 0x00, 0x02, 0x04, 0x00, 0x20, 0xF1, 0x47] =
      .ok (.writeMultipleRegisters { tid0 := 0, tid1 := 2, uid := 1 } 40001 2 4 [0x00, 0x20, 0xF1, 0x47]) ∧
    decodeFrame Config.params [0x00, 0x04, 0x00, 0x00, 0x00, 0x05, 0x01, 0x05, 0x9C, 0x41, 0xFF, 0x00] =
      .ok (.illegalFunction { tid0 := 0, tid1 := 4, uid := 1 } 0x05 [0x9C, 0x41, 0xFF, 0x00]) := by decide

/-- The seven rows of the host port, from the op field written out (R101). -/
theorem test_decode_host_ops :
    decodeHostOp { op := 0b000, addr := 0x9C41, wdata := 0xABCD1234 } = .getU16 40001 ∧
    decodeHostOp { op := 0b001, addr := 0x9C60, wdata := 0xABCD1234 } = .setU16 40032 0xABCD1234 ∧
    decodeHostOp { op := 0b010, addr := 0x9C41, wdata := 0 } = .getU32 40001 ∧
    decodeHostOp { op := 0b011, addr := 0x9C5F, wdata := 0x12345678 } = .setU32 40031 0x12345678 ∧
    decodeHostOp { op := 0b100, addr := 0x9C41, wdata := 0 } = .getFloat 40001 ∧
    decodeHostOp { op := 0b101, addr := 0x9C41, wdata := 0x7FC00001 } = .setFloat 40001 0x7FC00001 ∧
    decodeHostOp { op := 0b110, addr := 0x9C41, wdata := 0 } = .hostReserved false 40001 0 ∧
    decodeHostOp { op := 0b111, addr := 0x9C41, wdata := 0 } = .hostReserved true 40001 0 := by decide

/-- The drops of 95 L2.1 by header: X1, X2, X3, X4, X5, X6. -/
theorem test_decode_rejects_headers :
    decodeFrame Config.params [0x00, 0x01, 0x00, 0x00, 0x00, 0x01, 0x01] = .error .tooShort ∧
    decodeFrame Config.params [0x00, 0x01, 0x00, 0x01, 0x00, 0x05, 0x01, 0x03, 0x9C, 0x41, 0x00, 0x01] =
      .error .protocolId ∧
    decodeFrame Config.params [0x00, 0x01, 0x01, 0x00, 0x00, 0x05, 0x01, 0x03, 0x9C, 0x41, 0x00, 0x01] =
      .error .protocolId ∧
    decodeFrame Config.params [0x00, 0x01, 0x00, 0x00, 0x00, 0x06, 0x01, 0x03, 0x9C, 0x41, 0x00, 0x01] =
      .error .lengthField ∧
    decodeFrame Config.params [0x00, 0x01, 0x00, 0x00, 0x00, 0x04, 0x01, 0x03, 0x9C, 0x41, 0x00, 0x01] =
      .error .lengthField ∧
    decodeFrame Config.params [0x00, 0x01, 0x00, 0x00, 0x00, 0x00, 0x01, 0x05] = .error .lengthField := by decide

/-- X7 and AC2: 261 bytes are one too many, 260 are accepted, whatever the payload's bytes. -/
theorem test_decode_at_the_buffer_size (payload : List Byte) :
    (payload.length = 253 →
      decodeFrame Config.params ([0x00, 0x01, 0x00, 0x00, 0x00, 0xFE, 0x01, 0x05] ++ payload) = .error .tooLong) ∧
    (payload.length = 252 →
      decodeFrame Config.params ([0x00, 0x01, 0x00, 0x00, 0x00, 0xFD, 0x01, 0x05] ++ payload) =
        .ok (.illegalFunction hdr1 0x05 payload)) := by
  constructor <;> intro h <;>
    simp [decodeFrame, decodeADU, parsePDU, lenOf, be16, Config.params, hdr1, h]

/-- The drops of 95 L2.1 by payload length: X8, X10, X11, X12, X13, X14; and X15, where the protocol id wins. -/
theorem test_decode_rejects_payloads :
    decodeFrame Config.params [0x00, 0x01, 0x00, 0x00, 0x00, 0x01, 0x01, 0x03] = .error .payloadLength ∧
    decodeFrame Config.params [0x00, 0x01, 0x00, 0x00, 0x00, 0x06, 0x01, 0x03, 0x9C, 0x41, 0x00, 0x01, 0x00] =
      .error .payloadLength ∧
    decodeFrame Config.params [0x00, 0x01, 0x00, 0x00, 0x00, 0x06, 0x01, 0x06, 0x9C, 0x41, 0x04, 0xD2, 0x00] =
      .error .payloadLength ∧
    decodeFrame Config.params [0x00, 0x01, 0x00, 0x00, 0x00, 0x05, 0x01, 0x10, 0x9C, 0x41, 0x00, 0x01] =
      .error .payloadLength ∧
    decodeFrame Config.params
        [0x00, 0x01, 0x00, 0x00, 0x00, 0x09, 0x01, 0x10, 0x9C, 0x41, 0x00, 0x02, 0x04, 0x00, 0x20, 0xF1] =
      .error .payloadLength ∧
    decodeFrame Config.params [0x00, 0x01, 0x00, 0x00, 0x00, 0x0B, 0x01, 0x10, 0x9C, 0x41, 0x00, 0x02, 0x04, 0x00,
        0x20, 0xF1, 0x47, 0x00] = .error .payloadLength ∧
    decodeFrame Config.params [0x00, 0x01, 0x00, 0x01, 0x00, 0x02, 0x01, 0x05, 0x00] = .error .protocolId := by decide

/-- The encoder writes what the spec writes: M1, and the pseudo-operation of 95 L1.6. -/
theorem test_encode_wrmr :
    encode Config.params (wrmr 2 1 40001 2 [0x0020, 0xF147]) =
      .frame [0x00, 0x02, 0x00, 0x00, 0x00, 0x0A, 0x01, 0x10, 0x9C, 0x41, 0x00, 0x02, 0x04, 0x00, 0x20, 0xF1, 0x47] ∧
    encode Config.params (wrf32 8 1 40001 0x47F12000) =
      .frame [0x00, 0x08, 0x00, 0x00, 0x00, 0x0A, 0x01, 0x10, 0x9C, 0x41, 0x00, 0x02, 0x04, 0x20, 0x00, 0x47, 0xF1] := by
  decide

/-- Opcode-table words: the match bits of each row the word tells apart, with every other bit zero. The 8-bit words 0,
3, 4 and 6 match rows of both ports (log 8). -/
theorem test_decodeTableWord :
    decodeTableWord 8 0x03 = some (.readHoldingRegisters ⟨0, 0, 0⟩ 0 0) ∧
    decodeTableWord 8 0x04 = some (.readHoldingRegisters04 ⟨0, 0, 0⟩ 0 0) ∧
    decodeTableWord 8 0x06 = some (.writeSingleRegister ⟨0, 0, 0⟩ 0 0) ∧
    decodeTableWord 8 0x10 = some (.writeMultipleRegisters ⟨0, 0, 0⟩ 0 0 0 []) ∧
    decodeTableWord 8 0xFF = some (.illegalFunction ⟨0, 0, 0⟩ 0xFF []) ∧
    decodeTableWord 8 0 = some (.getU16 0) ∧
    decodeTableWord 8 1 = some (.setU16 0 0) ∧
    decodeTableWord 8 2 = some (.getU32 0) ∧
    decodeTableWord 3 3 = some (.setU32 0 0) ∧
    decodeTableWord 3 4 = some (.getFloat 0) ∧
    decodeTableWord 8 5 = some (.setFloat 0 0) ∧
    decodeTableWord 3 6 = some (.hostReserved false 0 0) := by decide

/-- What the host places for a table word is what runs first after reset: rows of both ports. -/
theorem test_first_step_after_reset :
    goesOn (step (State.reset.withFetchWord 8 0x03)) = true ∧
    goesOn (step (State.reset.withFetchWord 8 0xFF)) = true ∧
    goesOn (step (State.reset.withFetchWord 8 1)) = true ∧
    goesOn (step (State.reset.withFetchWord 8 7)) = false := ⟨rfl, rfl, rfl, rfl⟩

/-! ### One step of each instruction -/

/-- RH1 and RH4: two words from the start of the store, one word at its end. -/
theorem test_read_holding_registers :
    outcome (onFrame demo [0x00, 0x03, 0x00, 0x00, 0x00, 0x05, 0x01, 0x03, 0x9C, 0x41, 0x00, 0x02]) =
      some (.response [0x00, 0x03, 0x00, 0x00, 0x00, 0x06, 0x01, 0x03, 0x04, 0x00, 0x20, 0xF1, 0x47]) ∧
    outcome (onFrame demo [0x00, 0x01, 0x00, 0x00, 0x00, 0x05, 0x01, 0x03, 0x9C, 0x60, 0x00, 0x01]) =
      some (.response [0x00, 0x01, 0x00, 0x00, 0x00, 0x04, 0x01, 0x03, 0x02, 0x55, 0x55]) := by decide

/-- RH3, RH5, RH7, RH9, RH10: the exceptions. -/
theorem test_read_holding_registers_exceptions :
    outcome (onFrame demo [0x00, 0x01, 0x00, 0x00, 0x00, 0x05, 0x01, 0x03, 0x9C, 0x40, 0x00, 0x00]) =
      some (.response [0x00, 0x01, 0x00, 0x00, 0x00, 0x02, 0x01, 0x83, 0x03]) ∧
    outcome (onFrame demo [0x00, 0x01, 0x00, 0x00, 0x00, 0x05, 0x01, 0x03, 0x9C, 0x60, 0x00, 0x02]) =
      some (.response [0x00, 0x01, 0x00, 0x00, 0x00, 0x02, 0x01, 0x83, 0x02]) ∧
    outcome (onFrame demo [0x00, 0x01, 0x00, 0x00, 0x00, 0x05, 0x01, 0x03, 0x9C, 0x41, 0x00, 0x21]) =
      some (.response [0x00, 0x01, 0x00, 0x00, 0x00, 0x02, 0x01, 0x83, 0x02]) ∧
    outcome (onFrame demo [0x00, 0x01, 0x00, 0x00, 0x00, 0x05, 0x01, 0x03, 0xFF, 0xFF, 0xFF, 0xFF]) =
      some (.response [0x00, 0x01, 0x00, 0x00, 0x00, 0x02, 0x01, 0x83, 0x02]) := by decide

/-- RI4 and RI2. -/
theorem test_read_holding_registers_04 :
    outcome (onFrame demo [0x00, 0x07, 0x00, 0x00, 0x00, 0x05, 0x01, 0x04, 0x9C, 0x41, 0x00, 0x02]) =
      some (.response [0x00, 0x07, 0x00, 0x00, 0x00, 0x06, 0x01, 0x04, 0x04, 0x00, 0x20, 0xF1, 0x47]) ∧
    outcome (onFrame demo [0x00, 0x07, 0x00, 0x00, 0x00, 0x05, 0x01, 0x04, 0x9C, 0x40, 0x00, 0x01]) =
      some (.response [0x00, 0x07, 0x00, 0x00, 0x00, 0x02, 0x01, 0x84, 0x02]) := by decide

/-- W5 and its store word. -/
theorem test_write_single_register :
    outcome (onFrame demo [0x12, 0x34, 0x00, 0x00, 0x00, 0x05, 0x7F, 0x06, 0x9C, 0x50, 0x80, 0x00]) =
      some (.response [0x12, 0x34, 0x00, 0x00, 0x00, 0x05, 0x7F, 0x06, 0x9C, 0x50, 0x80, 0x00]) ∧
    words [14, 15, 16] (onFrame demo [0x12, 0x34, 0x00, 0x00, 0x00, 0x05, 0x7F, 0x06, 0x9C, 0x50, 0x80, 0x00]) =
      some [0, 0x8000, 0] := by decide

/-- W2: one past the end. -/
theorem test_write_single_register_out_of_range :
    outcome (onFrame demo [0x00, 0x01, 0x00, 0x00, 0x00, 0x05, 0x01, 0x06, 0x9C, 0x61, 0x00, 0x01]) =
      some (.response [0x00, 0x01, 0x00, 0x00, 0x00, 0x02, 0x01, 0x86, 0x02]) := by decide

/-- M7: the last two words. -/
theorem test_write_multiple_registers :
    outcome (onFrame demo
        [0x00, 0x01, 0x00, 0x00, 0x00, 0x0A, 0x01, 0x10, 0x9C, 0x5F, 0x00, 0x02, 0x04, 0xAA, 0xAA, 0xBB, 0xBB]) =
      some (.response [0x00, 0x01, 0x00, 0x00, 0x00, 0x05, 0x01, 0x10, 0x9C, 0x5F, 0x00, 0x02]) ∧
    words [29, 30, 31] (onFrame demo
        [0x00, 0x01, 0x00, 0x00, 0x00, 0x0A, 0x01, 0x10, 0x9C, 0x5F, 0x00, 0x02, 0x04, 0xAA, 0xAA, 0xBB, 0xBB]) =
      some [0, 0xAAAA, 0xBBBB] := by decide

/-- M3, M4 (no write up to the end), M5 and M6. -/
theorem test_write_multiple_registers_exceptions :
    outcome (onFrame demo [0x00, 0x01, 0x00, 0x00, 0x00, 0x06, 0x01, 0x10, 0x9C, 0x41, 0x00, 0x80, 0x00]) =
      some (.response [0x00, 0x01, 0x00, 0x00, 0x00, 0x02, 0x01, 0x90, 0x03]) ∧
    outcome (onFrame demo
        [0x00, 0x01, 0x00, 0x00, 0x00, 0x0A, 0x01, 0x10, 0x9C, 0x60, 0x00, 0x02, 0x04, 0x11, 0x11, 0x22, 0x22]) =
      some (.response [0x00, 0x01, 0x00, 0x00, 0x00, 0x02, 0x01, 0x90, 0x02]) ∧
    words [31] (onFrame demo
        [0x00, 0x01, 0x00, 0x00, 0x00, 0x0A, 0x01, 0x10, 0x9C, 0x60, 0x00, 0x02, 0x04, 0x11, 0x11, 0x22, 0x22]) =
      some [0x5555] ∧
    outcome (onFrame demo
        [0x00, 0x01, 0x00, 0x00, 0x00, 0x09, 0x01, 0x10, 0x9C, 0x41, 0x00, 0x01, 0x03, 0xAA, 0xBB, 0xCC]) =
      some (.response [0x00, 0x01, 0x00, 0x00, 0x00, 0x02, 0x01, 0x90, 0x03]) := by decide

/-- IF3 and IF5, and AC1 with no payload at all. -/
theorem test_illegal_function :
    outcome (onFrame demo [0x00, 0x01, 0x00, 0x00, 0x00, 0x05, 0x01, 0x83, 0x9C, 0x41, 0x00, 0x01]) =
      some (.response [0x00, 0x01, 0x00, 0x00, 0x00, 0x02, 0x01, 0x83, 0x01]) ∧
    outcome (onFrame demo [0x00, 0x01, 0x00, 0x00, 0x00, 0x03, 0x01, 0x17, 0x00, 0x00]) =
      some (.response [0x00, 0x01, 0x00, 0x00, 0x00, 0x02, 0x01, 0x97, 0x01]) ∧
    outcome (onFrame demo [0x00, 0x01, 0x00, 0x00, 0x00, 0x01, 0x01, 0x05]) =
      some (.response [0x00, 0x01, 0x00, 0x00, 0x00, 0x02, 0x01, 0x85, 0x01]) := by decide

/-- X4: a standard-mode frame is dropped, and the store stays. -/
theorem test_malformed_frame_is_dropped :
    outcome (onFrame demo [0x00, 0x01, 0x00, 0x00, 0x00, 0x06, 0x01, 0x06, 0x9C, 0x41, 0x00, 0x01]) =
      some .dropped ∧
    words [0] (onFrame demo [0x00, 0x01, 0x00, 0x00, 0x00, 0x06, 0x01, 0x06, 0x9C, 0x41, 0x00, 0x01]) =
      some [0x0020] := by decide

/-- S1, S2 and S3: the standard's LEN_MODE. -/
theorem test_standard_length_mode :
    outcome (onFrame demoStandard [0x00, 0x03, 0x00, 0x00, 0x00, 0x06, 0x01, 0x03, 0x9C, 0x41, 0x00, 0x02]) =
      some (.response [0x00, 0x03, 0x00, 0x00, 0x00, 0x07, 0x01, 0x03, 0x04, 0x00, 0x20, 0xF1, 0x47]) ∧
    outcome (onFrame demoStandard [0x00, 0x03, 0x00, 0x00, 0x00, 0x05, 0x01, 0x03, 0x9C, 0x41, 0x00, 0x02]) =
      some .dropped ∧
    outcome (onFrame demoStandard [0x00, 0x04, 0x00, 0x00, 0x00, 0x06, 0x01, 0x05, 0x9C, 0x41, 0xFF, 0x00]) =
      some (.response [0x00, 0x04, 0x00, 0x00, 0x00, 0x03, 0x01, 0x85, 0x01]) := by decide

/-- HP2, HP3, HP15, and the last word (L1.3). -/
theorem test_getU16 :
    result (onHost demo 0b000 40032 0) = some (.ok16 0x5555) ∧
    result (onHost demo 0b000 40000 0) = some (.err .addressOutOfRange) ∧
    result (onHost demo 0b000 40033 0) = some (.err .addressOutOfRange) ∧
    result (onHost demoOne 0b000 40001 0) = some (.ok16 0x0042) := by decide

/-- HP5 and HP6. -/
theorem test_setU16 :
    result (onHost demo 0b001 40032 0xABCD1234) = some .ok ∧
    words [30, 31] (onHost demo 0b001 40032 0xABCD1234) = some [0, 0x1234] ∧
    result (onHost demo 0b001 40033 1) = some (.err .addressOutOfRange) := by decide

/-- HP9, HP14, and 40032 (L1.3). -/
theorem test_getU32 :
    result (onHost demo 0b010 40001 0) = some (.ok32 0xF1470020) ∧
    result (onHost demo 0b010 40032 0) = some (.err .addressOutOfRange) ∧
    result (onHost demoOne 0b010 40001 0) = some (.err .addressOutOfRange) := by decide

/-- HP7 (no low-half write) and HP8. -/
theorem test_setU32 :
    result (onHost demo 0b011 40032 0x12345678) = some (.err .addressOutOfRange) ∧
    words [31] (onHost demo 0b011 40032 0x12345678) = some [0x5555] ∧
    result (onHost demo 0b011 40031 0x12345678) = some .ok ∧
    words [30, 31] (onHost demo 0b011 40031 0x12345678) = some [0x5678, 0x1234] := by decide

/-- HP10, and 40032 (L1.3). -/
theorem test_getFloat :
    result (onHost demo 0b100 40001 0) = some (.ok32 0xF1470020) ∧
    result (onHost demo 0b100 40032 0) = some (.err .addressOutOfRange) := by decide

/-- HP11 and HP13: NaN patterns are stored as they are, at any index. -/
theorem test_setFloat :
    words [0, 1] (onHost demo 0b101 40001 0x7FC00001) = some [0x0001, 0x7FC0] ∧
    words [1, 2] (onHost demo 0b101 40002 0x7F800001) = some [0x0001, 0x7F80] := by decide

/-- HP16. -/
theorem test_hostReserved :
    onHost demo 0b110 40001 0 = .refused (.reservedHostOp 0b110) ∧
    onHost demo 0b111 40001 0 = .refused (.reservedHostOp 0b111) := ⟨rfl, rfl⟩

/-- HP1's rdata has zeros above the word, HP9's is all 32 bits; an error has no rdata (R101). -/
theorem test_host_wires :
    (HostResult.ok16 0x04D2).rdata = some 0x000004D2 ∧ (HostResult.ok32 0xF1470020).rdata = some 0xF1470020 ∧
    (HostResult.err .addressOutOfRange).errBit = true ∧
    (HostResult.err .addressOutOfRange).rdata = none := by decide

/-! ### Witnesses -/

/-- The frame of RH1. -/
def readFrame : List Byte := [0x00, 0x03, 0x00, 0x00, 0x00, 0x05, 0x01, 0x03, 0x9C, 0x41, 0x00, 0x02]

/-- The frame of X1. -/
def shortFrame : List Byte := [0x00, 0x01, 0x00, 0x00, 0x00, 0x01, 0x01]

/-- A host read of the first word. -/
def getFirst : HostOp := { op := 0b000, addr := 40001, wdata := 0 }

/-- Both ports with an operation pending. -/
def contested (b : List Byte) (turn : Port) (credit : Nat) : State :=
  { (demo.deliver b).issue getFirst with turn := turn, credit := credit }

/-- The reset statements: the smallest, this, and the largest build, and the first and last address of each. -/
theorem witness_ReadAfterResetReturnsInitStore :
    (Config.LegalSize 1 ∧ Params.Legal { lenMode := .afterUnitId, maxAdu := 12 } ∧
      40001 ≤ (40001 : Word).toNat ∧ (40001 : Word).toNat ≤ 40000 + 1) ∧
    (Config.LegalSize 32 ∧ Params.Legal Config.params ∧
      40001 ≤ (40032 : Word).toNat ∧ (40032 : Word).toNat ≤ 40000 + 32) ∧
    (Config.LegalSize 125 ∧ Params.Legal { lenMode := .afterLengthField, maxAdu := 65542 } ∧
      40001 ≤ (40125 : Word).toNat ∧ (40125 : Word).toNat ≤ 40000 + 125) := by decide

theorem witness_ResetMeetsInvariant :
    (Config.LegalSize 1 ∧ Params.Legal { lenMode := .afterUnitId, maxAdu := 12 }) ∧
    (Config.LegalSize 125 ∧ Params.Legal { lenMode := .afterLengthField, maxAdu := 65542 }) := by decide

theorem witness_BuildParametersNeverChange :
    ∃ t, step (demo.deliver readFrame) = .next t := ⟨_, rfl⟩

/-- A state with a frame to answer meets the invariant, and its step goes on. -/
theorem witness_StepKeepsInvariant :
    State.Inv (demo.deliver readFrame) ∧ ∃ t, step (demo.deliver readFrame) = .next t := by
  refine ⟨⟨by decide, by decide, ?_⟩, _, rfl⟩
  intro b hb
  cases hb

theorem witness_StepRunsDecodedFrame :
    ((demo.deliver readFrame).inFlight = none ∧ (demo.deliver readFrame).frames = readFrame :: [] ∧
      decodeFrame demo.params readFrame = .ok (.readHoldingRegisters ⟨0, 3, 1⟩ 40001 2) ∧
      (demo.deliver readFrame).hostOps = []) ∧
    ((contested readFrame .protocol 1).inFlight = none ∧
      (contested readFrame .protocol 1).frames = readFrame :: [] ∧
      (contested readFrame .protocol 1).hostOps ≠ [] ∧ (contested readFrame .protocol 1).favoured = .protocol) ∧
    (contested readFrame .host 0).favoured = .protocol := by decide

theorem witness_StepRunsDecodedHostOp :
    ((demo.issue getFirst).inFlight = none ∧ (demo.issue getFirst).hostOps = getFirst :: [] ∧
      (demo.issue getFirst).frames = []) ∧
    ((contested readFrame .host 1).inFlight = none ∧ (contested readFrame .host 1).hostOps = getFirst :: [] ∧
      (contested readFrame .host 1).frames ≠ [] ∧ (contested readFrame .host 1).favoured = .host) ∧
    (contested readFrame .protocol 0).favoured = .host := by decide

theorem witness_MalformedFrameIsDropped :
    ((demo.deliver shortFrame).inFlight = none ∧ (demo.deliver shortFrame).outbound = [] ∧
      (demo.deliver shortFrame).frames = shortFrame :: [] ∧
      decodeFrame demo.params shortFrame = .error .tooShort ∧ (demo.deliver shortFrame).hostOps = []) ∧
    ((contested shortFrame .protocol 1).inFlight = none ∧ (contested shortFrame .protocol 1).outbound = [] ∧
      (contested shortFrame .protocol 1).frames = shortFrame :: [] ∧
      (contested shortFrame .protocol 1).hostOps ≠ [] ∧ (contested shortFrame .protocol 1).favoured = .protocol) := by
  decide

/-- Inputs of both ports, mixed: each joins the end of its own queue (R75 items 1 and 2). -/
theorem test_inputs_join_the_queues :
    ((contested readFrame .protocol 1).offerAll [.frame shortFrame, .hostOp ⟨0b010, 40001, 0⟩, .frame readFrame]).frames =
      [readFrame, shortFrame, readFrame] ∧
    ((contested readFrame .protocol 1).offerAll [.frame shortFrame, .hostOp ⟨0b010, 40001, 0⟩, .frame readFrame]).hostOps =
      [getFirst, ⟨0b010, 40001, 0⟩] := by decide

/-- A reset of a state with a frame, a host operation and a transaction pending, and the two starts of a run. -/
theorem witness_ResetLeavesPortsIdle :
    (State.reset = State.resetWith Config.params Config.size Config.initStore) ∧
    (((contested readFrame .host 1).accept (.frame readFrame)).resetAgain (fun _ => 7) =
        ((contested readFrame .host 1).accept (.frame readFrame)).resetAgain (fun _ => 7) ∧
      32 = ((contested readFrame .host 1).accept (.frame readFrame)).n) := ⟨rfl, rfl, rfl⟩

/-- The arbiter's fields of the next state. -/
def arbiter : Host.Outcome State Fault Refusal → Option (Port × Nat)
  | .next s => some (s.turn, s.draws)
  | .fault _ => none
  | .refused _ => none

/-- A host operation served between contests lets the protocol port keep its turn, with a fresh burst length; a frame
then costs nothing. So the protocol port may win every contest for ever (R76, log 3). -/
theorem test_uncontested_grant_renews_the_burst :
    arbiter (step { demo.issue getFirst with turn := .protocol }) = some (.protocol, 1) ∧
    arbiter (step { demo.deliver readFrame with turn := .protocol }) = some (.protocol, 0) := ⟨rfl, rfl⟩

/-- A reset in mid-run draws a burst length that was not used before (logs 3 and 13). -/
theorem test_resetAgain_draws_a_new_burst :
    ({ demo with draws := 5 } : State).resetAgain (fun _ => 0) =
      { State.resetWith Config.params 32 (fun _ => 0) with credit := Config.burst 5, draws := 6 } := rfl

theorem witness_IdleCoreWaits : State.Finished demo := by decide

/-- Each disjunct of the conclusion happens: a frame, a host operation. -/
theorem witness_StepAnswersExactlyOneOperation :
    ((demo.deliver readFrame).inFlight = none ∧ ¬ State.Finished (demo.deliver readFrame) ∧
      goesOn (step (demo.deliver readFrame)) = true) ∧
    ((demo.issue getFirst).inFlight = none ∧ ¬ State.Finished (demo.issue getFirst) ∧
      goesOn (step (demo.issue getFirst)) = true) := by decide

theorem witness_EveryFrameGetsAnOutcome :
    ((demo.deliver shortFrame).inFlight = none ∧ (demo.deliver shortFrame).frames = shortFrame :: [] ∧
      (demo.deliver shortFrame).hostOps = []) ∧
    ((contested readFrame .protocol 1).inFlight = none ∧
      (contested readFrame .protocol 1).frames = readFrame :: [] ∧
      (contested readFrame .protocol 1).favoured = .protocol) := by decide

theorem witness_OnlyReservedHostOpsStop :
    step (demo.issue { op := 0b110, addr := 0, wdata := 0 }) = .refused (.reservedHostOp 0b110) ∧
    step (demo.accept (.hostOp { op := 0b111, addr := 0, wdata := 0 })) = .refused (.reservedHostOp 0b111) :=
  ⟨rfl, rfl⟩

theorem witness_PlacedWordRunsNext :
    decode demo.params (tableTransaction demo.params 8 0x03) = .ok (.readHoldingRegisters ⟨0, 0, 0⟩ 0 0) ∧
    decode demo.params (tableTransaction demo.params 3 0x05) = .ok (.setFloat 0 0) := by decide

theorem witness_EitherPortMayBeServedNext :
    (contested readFrame .protocol 0).inFlight = none ∧ (contested readFrame .protocol 0).frames = readFrame :: [] ∧
      (contested readFrame .protocol 0).hostOps = getFirst :: [] := by decide

theorem witness_PendingFrameIsServed :
    (contested readFrame .host 1).inFlight = none ∧ State.HostObeys (contested readFrame .host 1) ∧
      (contested readFrame .host 1).frames = readFrame :: [] := by
  refine ⟨rfl, ?_, rfl⟩
  intro o ho
  rw [List.mem_singleton.mp ho]
  decide

theorem witness_PendingHostOpIsServed :
    (contested readFrame .protocol 1).inFlight = none ∧ State.HostObeys (contested readFrame .protocol 1) ∧
      (contested readFrame .protocol 1).hostOps = getFirst :: [] := by
  refine ⟨rfl, ?_, rfl⟩
  intro o ho
  rw [List.mem_singleton.mp ho]
  decide

theorem witness_RunEndsWithEveryAnswer :
    (contested readFrame .protocol 1).inFlight = none ∧ State.HostObeys (contested readFrame .protocol 1) ∧
      (contested readFrame .protocol 1).frames.length + (contested readFrame .protocol 1).hostOps.length = 2 :=
  ⟨rfl, witness_PendingHostOpIsServed.2.1, rfl⟩

/-- One well-formed instruction of each constructor; the protocol ones at the edge of the buffer. -/
theorem witness_DecodeOfEncode :
    Instr.wellFormed ⟨.afterUnitId, 12⟩ (.readHoldingRegisters hdr1 0xFFFF 0) = true ∧
    Instr.wellFormed ⟨.afterLengthField, 12⟩ (.readHoldingRegisters04 hdr1 0 0xFFFF) = true ∧
    Instr.wellFormed ⟨.afterUnitId, 12⟩ (.writeSingleRegister hdr1 40001 0x8000) = true ∧
    Instr.wellFormed ⟨.afterUnitId, 15⟩ (.writeMultipleRegisters hdr1 40001 9 2 [1, 2]) = true ∧
    Instr.wellFormed ⟨.afterUnitId, 12⟩ (.illegalFunction hdr1 0x83 [1, 2, 3, 4]) = true ∧
    Instr.wellFormed Config.params (.getU16 0) = true ∧ Instr.wellFormed Config.params (.setU16 0 0) = true ∧
    Instr.wellFormed Config.params (.getU32 0) = true ∧ Instr.wellFormed Config.params (.setU32 0 0) = true ∧
    Instr.wellFormed Config.params (.getFloat 0) = true ∧ Instr.wellFormed Config.params (.setFloat 0 0) = true ∧
    Instr.wellFormed Config.params (.hostReserved true 0 0) = true := by decide

/-- The largest byte count, at the edge of the buffer. -/
theorem witness_DecodeOfEncode_largest (data : List Byte) (h : data.length = 255) :
    Instr.wellFormed ⟨.afterUnitId, 268⟩ (.writeMultipleRegisters hdr1 40001 1 255 data) = true := by
  simp [Instr.wellFormed, h]

theorem witness_EncodeOfDecodedFrame :
    decodeFrame Config.params readFrame = .ok (.readHoldingRegisters ⟨0, 3, 1⟩ 40001 2) := by decide

/-- Both sides of the equivalence, at 8 bytes and at exactly MAX_ADU. -/
theorem witness_DecodeADUAcceptsExactly :
    decodeADU Config.params [0x00, 0x01, 0x00, 0x00, 0x00, 0x01, 0x01, 0x05] =
      .ok { hdr := hdr1, fc := 0x05, payload := [] } ∧
    decodeADU ⟨.afterUnitId, 12⟩ readFrame =
      .ok { hdr := ⟨0, 3, 1⟩, fc := 0x03, payload := [0x9C, 0x41, 0x00, 0x02] } ∧
    decodeADU ⟨.afterUnitId, 11⟩ readFrame = .error .tooLong := by decide

/-- Both sides of the equivalence, at the payload lengths around the one each code needs. -/
theorem witness_ParsePDUDropsExactly :
    parsePDU { hdr := hdr1, fc := 0x03, payload := [0, 0, 0] } = .error .payloadLength ∧
    parsePDU { hdr := hdr1, fc := 0x04, payload := [0, 0, 0, 0, 0] } = .error .payloadLength ∧
    parsePDU { hdr := hdr1, fc := 0x06, payload := [0, 0, 0, 0] } = .ok (.writeSingleRegister hdr1 0 0) ∧
    parsePDU { hdr := hdr1, fc := 0x10, payload := [0, 0, 0, 0] } = .error .payloadLength ∧
    parsePDU { hdr := hdr1, fc := 0x10, payload := [0, 0, 0, 0, 0] } = .ok (.writeMultipleRegisters hdr1 0 0 0 []) ∧
    parsePDU { hdr := hdr1, fc := 0x10, payload := [0, 0, 0, 0, 1] } = .error .payloadLength := by decide

/-- WRMR with the byte count written out, inconsistent with its quantity: the frame of L1.9. -/
theorem test_encode_wrmrCounted :
    encode Config.params (wrmrCounted 6 1 40001 2 2 [0xAABB]) =
      .frame [0x00, 0x06, 0x00, 0x00, 0x00, 0x08, 0x01, 0x10, 0x9C, 0x41, 0x00, 0x02, 0x02, 0xAA, 0xBB] := by decide

/-- Both function codes; each clause at its edges: the whole store, its last word, a quantity of zero, one word too
many, one below the map, one past it. -/
theorem witness_ReadHoldingRegistersReadsTheRange :
    State.LegalBuild demo ∧
    (((0x03 : Byte) = 0x03 ∧
        Instr.readHoldingRegisters hdr1 40001 32 = .readHoldingRegisters hdr1 40001 32 ∨
      (0x03 : Byte) = 0x04 ∧ Instr.readHoldingRegisters hdr1 40001 32 = .readHoldingRegisters04 hdr1 40001 32)) ∧
    ((0x04 : Byte) = 0x03 ∧
        Instr.readHoldingRegisters04 hdr1 40032 1 = .readHoldingRegisters hdr1 40032 1 ∨
      (0x04 : Byte) = 0x04 ∧ Instr.readHoldingRegisters04 hdr1 40032 1 = .readHoldingRegisters04 hdr1 40032 1) ∧
    (1 ≤ (32 : Word).toNat ∧ 40001 ≤ (40001 : Word).toNat ∧ (40001 : Word).toNat - 40001 + (32 : Word).toNat ≤ demo.n) ∧
    (1 ≤ (1 : Word).toNat ∧ 40001 ≤ (40032 : Word).toNat ∧ (40032 : Word).toNat - 40001 + (1 : Word).toNat ≤ demo.n) ∧
    (0 : Word).toNat = 0 ∧
    (1 ≤ (33 : Word).toNat ∧ demo.n < (40001 : Word).toNat - 40001 + (33 : Word).toNat) ∧
    (1 ≤ (1 : Word).toNat ∧ (40000 : Word).toNat < 40001) ∧
    (1 ≤ (1 : Word).toNat ∧ demo.n < (40033 : Word).toNat - 40001 + (1 : Word).toNat) := by decide

/-- The first and the last mapped address, and the addresses one outside them. -/
theorem witness_WriteSingleRegisterStoresAndEchoes :
    State.LegalBuild demo ∧
    (40001 ≤ (40001 : Word).toNat ∧ (40001 : Word).toNat ≤ 40000 + demo.n) ∧
    (40001 ≤ (40032 : Word).toNat ∧ (40032 : Word).toNat ≤ 40000 + demo.n) ∧
    (40000 : Word).toNat < 40001 ∧ 40000 + demo.n < (40033 : Word).toNat := by decide

theorem witness_WriteMultipleRegistersStoresTheRange :
    State.LegalBuild demo ∧
    (([0, 1, 2, 3] : List Byte).length = (4 : Byte).toNat ∧ 13 + (4 : Byte).toNat ≤ demo.params.maxAdu ∧
      1 ≤ (2 : Word).toNat ∧ (4 : Byte).toNat = 2 * (2 : Word).toNat ∧ 40001 ≤ (40031 : Word).toNat ∧
      (40031 : Word).toNat - 40001 + (2 : Word).toNat ≤ demo.n) ∧
    (([] : List Byte).length = (0 : Byte).toNat ∧ (0 : Word).toNat = 0) ∧
    (([] : List Byte).length = (0 : Byte).toNat ∧ (0 : Byte).toNat ≠ 2 * (128 : Word).toNat) ∧
    (1 ≤ (2 : Word).toNat ∧ (4 : Byte).toNat = 2 * (2 : Word).toNat ∧
      demo.n < (40032 : Word).toNat - 40001 + (2 : Word).toNat) ∧
    (40000 : Word).toNat < 40001 := by decide

/-- The largest byte count that fits this hardware's buffer. -/
theorem witness_WriteMultipleRegistersStoresTheRange_largest :
    (List.replicate 247 (0 : Byte)).length = (247 : Byte).toNat ∧ 13 + (247 : Byte).toNat ≤ demo.params.maxAdu :=
  ⟨List.length_replicate, by decide⟩

/-- A code next to a supported one, and one with bit 7 set, each in a frame that carries it (AC1, IF3). -/
theorem witness_IllegalFunctionIsAnswered :
    ((0x05 : Byte) ≠ 0x03 ∧ (0x05 : Byte) ≠ 0x04 ∧ (0x05 : Byte) ≠ 0x06 ∧ (0x05 : Byte) ≠ 0x10 ∧
      decodeADU demo.params [0x00, 0x01, 0x00, 0x00, 0x00, 0x01, 0x01, 0x05] =
        .ok { hdr := hdr1, fc := 0x05, payload := [] }) ∧
    ((0x83 : Byte) ≠ 0x03 ∧ (0x83 : Byte) ≠ 0x04 ∧ (0x83 : Byte) ≠ 0x06 ∧ (0x83 : Byte) ≠ 0x10 ∧
      decodeADU demo.params [0x00, 0x01, 0x00, 0x00, 0x00, 0x05, 0x01, 0x83, 0x9C, 0x41, 0x00, 0x01] =
        .ok { hdr := hdr1, fc := 0x83, payload := [0x9C, 0x41, 0x00, 0x01] }) := by decide

/-- GetU16ReadsOneWord and SetU16WritesOneWord: the first and last 16-bit access, and one outside each end. -/
theorem witness_SixteenBitAccess :
    (40001 ≤ (40001 : Word).toNat ∧ (40001 : Word).toNat ≤ 40000 + demo.n) ∧
    (40001 ≤ (40032 : Word).toNat ∧ (40032 : Word).toNat ≤ 40000 + demo.n) ∧
    (40000 : Word).toNat < 40001 ∧ 40000 + demo.n < (40033 : Word).toNat := by decide

/-- GetU32JoinsTwoWords, SetU32WritesBothWordsOrNeither, GetFloatReturnsThePattern, SetFloatStoresThePattern: the first
and last 32-bit access, one outside each end, and the build where no 32-bit access is valid. -/
theorem witness_ThirtyTwoBitAccess :
    (40001 ≤ (40001 : Word).toNat ∧ (40001 : Word).toNat < 40000 + demo.n) ∧
    (40001 ≤ (40031 : Word).toNat ∧ (40031 : Word).toNat < 40000 + demo.n) ∧
    (40000 : Word).toNat < 40001 ∧ 40000 + demo.n ≤ (40032 : Word).toNat ∧
    40000 + demoOne.n ≤ (40001 : Word).toNat := by decide

theorem witness_ReservedHostOpIsRefused :
    ((⟨0b110, 0, 0⟩ : HostOp).op = 0b110 ∨ (⟨0b110, 0, 0⟩ : HostOp).op = 0b111) ∧
    ((⟨0b111, 0, 0⟩ : HostOp).op = 0b110 ∨ (⟨0b111, 0, 0⟩ : HostOp).op = 0b111) := by decide

/-- A get that succeeds, a set that succeeds, and an error. -/
theorem witness_HostWiresCarryTheResult :
    ((Instr.getU16 40001).header? = none ∧
      ∃ t, exec (.getU16 40001) demo = .next t ∧ t.results = demo.results ++ [.ok16 0x0020]) ∧
    (∃ t, exec (.setU32 40001 5) demo = .next t ∧ t.results = demo.results ++ [.ok]) ∧
    ∃ t, exec (.getFloat 40032) demo = .next t ∧ t.results = demo.results ++ [.err .addressOutOfRange] :=
  ⟨⟨rfl, _, rfl, rfl⟩, ⟨_, rfl, rfl⟩, _, rfl, rfl⟩

theorem witness_SetThenGetReturnsTheValue :
    valid16 demo.n 40001 ∧ valid16 demo.n 40032 ∧ valid32 demo.n 40001 ∧ valid32 demo.n 40031 ∧
    (40032 : Word).toNat = (40031 : Word).toNat + 1 ∧
    (40000 : Word).toNat ≤ 40000 ∧ 40001 + demo.n ≤ (40033 : Word).toNat ∧ 40000 + demo.n ≤ (40032 : Word).toNat := by
  decide

theorem witness_PublishedValueOnTheWire :
    State.LegalBuild demo ∧ valid32 demo.n 40031 ∧
      (Instr.setFloat 40031 0x47F12000 = .setU32 40031 0x47F12000 ∨
        Instr.setFloat 40031 0x47F12000 = .setFloat 40031 0x47F12000) := by decide

theorem witness_PseudoOperationsMoveThirtyTwoBits : State.LegalBuild demo ∧ valid32 demo.n 40031 := by decide

theorem witness_TornWriteIsSeen :
    State.LegalBuild demo ∧ valid32 demo.n 40031 ∧ (40032 : Word).toNat = (40031 : Word).toNat + 1 := by decide

/-- A read, whose instruction names no word, and a write. -/
theorem witness_ReadsLeaveTheStoreAndWritesAreIdempotent :
    ((∃ t, exec (.readHoldingRegisters hdr1 40001 2) demo = .next t) ∧
      (Instr.readHoldingRegisters hdr1 40001 2).written.2 = 0) ∧
    ∃ t, exec (.setU32 40031 0x12345678) demo = .next t := ⟨⟨⟨_, rfl⟩, rfl⟩, _, rfl⟩

/-- A write of two words, and the words on either side of them. -/
theorem witness_OnlyTheNamedWordsAreWritten :
    (∃ t, exec (.setU32 40010 0x12345678) demo = .next t) ∧
    8 < (Instr.setU32 40010 0x12345678).written.1 ∧
    (Instr.setU32 40010 0x12345678).written.1 + (Instr.setU32 40010 0x12345678).written.2 ≤ 11 :=
  ⟨⟨_, rfl⟩, by decide⟩

theorem witness_ProtocolInstructionFrame :
    (Instr.readHoldingRegisters hdr1 40001 1).header? = some hdr1 ∧
    (Instr.readHoldingRegisters04 hdr1 40001 1).header? = some hdr1 ∧
    (Instr.writeSingleRegister hdr1 40001 1).header? = some hdr1 ∧
    (Instr.writeMultipleRegisters hdr1 40001 1 2 [0, 1]).header? = some hdr1 ∧
    (Instr.illegalFunction hdr1 0x05 []).header? = some hdr1 := by decide

theorem witness_HostOperationFrame :
    ∀ i ∈ [Instr.getU16 40001, .setU16 40001 1, .getU32 40001, .setU32 40001 1, .getFloat 40001, .setFloat 40001 1],
      i.header? = none ∧ ∀ r a w, i ≠ .hostReserved r a w := by
  intro i hi
  simp only [List.mem_cons, List.not_mem_nil, or_false] at hi
  rcases hi with rfl | rfl | rfl | rfl | rfl | rfl <;> exact ⟨rfl, by intros; simp⟩

theorem witness_ExceptionMeansNothingWritten :
    (Instr.writeSingleRegister hdr1 40033 1).header? = some hdr1 ∧
    (∃ t, exec (.writeSingleRegister hdr1 40033 1) demo = .next t ∧
      t.outcomes = demo.outcomes ++ [.response [0, 1, 0, 0, 0, 2, 1, 0x86, 2]]) ∧
    (0x80 : Byte) ≤ ([0, 1, 0, 0, 0, 2, 1, 0x86, 2] : List Byte).getD 7 0 :=
  ⟨rfl, ⟨_, rfl, rfl⟩, by decide⟩

theorem witness_ValueIsCheckedBeforeAddress :
    ((40000 : Word).toNat < 40001 ∧ (0 : Word).toNat = 0) ∧
    (40000 + demo.n < (40033 : Word).toNat ∧ (2 : Byte).toNat ≠ 2 * (2 : Word).toNat) := by decide

/-- A single write and a multiple write that succeed. -/
theorem witness_WritesEchoTheRequest :
    (decodeFrame demo.params (twoWordFrame demo.params hdr1 0x06 40001 1234) =
        .ok (.writeSingleRegister hdr1 40001 1234) ∧
      ∃ t, exec (.writeSingleRegister hdr1 40001 1234) demo = .next t ∧
        t.outcomes = demo.outcomes ++ [.response [0, 1, 0, 0, 0, 5, 1, 0x06, 0x9C, 0x41, 0x04, 0xD2]]) ∧
    (decodeFrame demo.params [0, 1, 0, 0, 0, 8, 1, 0x10, 0x9C, 0x41, 0x00, 0x01, 0x02, 0x12, 0x34] =
        .ok (.writeMultipleRegisters hdr1 40001 1 2 [0x12, 0x34]) ∧
      ∃ t, exec (.writeMultipleRegisters hdr1 40001 1 2 [0x12, 0x34]) demo = .next t ∧
        t.outcomes = demo.outcomes ++ [.response [0, 1, 0, 0, 0, 5, 1, 0x10, 0x9C, 0x41, 0x00, 0x01]]) ∧
    (0x06 : Byte) < 0x80 ∧ (0x10 : Byte) < 0x80 :=
  ⟨⟨by decide, _, rfl, rfl⟩, ⟨by decide, _, rfl, rfl⟩, by decide⟩

/-- A response that exactly fits the smallest buffer. -/
theorem witness_EmittedResponsesDecode :
    State.LegalBuild demoOne ∧ (Instr.writeSingleRegister hdr1 40001 1234).header? = some hdr1 ∧
    (∃ t, exec (.writeSingleRegister hdr1 40001 1234) demoOne = .next t ∧
      t.outcomes = demoOne.outcomes ++ [.response [0, 1, 0, 0, 0, 5, 1, 0x06, 0x9C, 0x41, 0x04, 0xD2]]) ∧
    ([0, 1, 0, 0, 0, 5, 1, 0x06, 0x9C, 0x41, 0x04, 0xD2] : List Byte).length ≤ demoOne.params.maxAdu :=
  ⟨by decide, rfl, ⟨_, rfl, rfl⟩, by decide⟩

/-- Two states that agree on the parameters and the store and differ elsewhere. -/
theorem witness_AnswerDependsOnStoreAlone :
    demo.params = (contested readFrame .host 3).params ∧ demo.store = (contested readFrame .host 3).store ∧
    demo ≠ contested readFrame .host 3 ∧ goesOn (exec (.getU16 40001) demo) = true := by decide

theorem witness_HeaderIsOpaqueAndEchoed :
    (Instr.writeSingleRegister hdr1 40001 1).header? = some hdr1 := by decide

theorem witness_StoreNeverChangesDecoding :
    ∃ t, step (demo.issue { op := 0b001, addr := 40001, wdata := 7 }) = .next t ∧ t.store ≠ demo.store :=
  ⟨_, rfl, by decide⟩

theorem witness_InputsAndResetKeepInvariant : State.Inv demo :=
  ⟨by decide, by decide, by intro b hb; cases hb⟩

/-- A state reached by an input, a step and a reset. -/
theorem witness_ReachableStatesMeetInvariant :
    ∃ t, step ((State.resetWith Config.params 32 (fun _ => 0)).offer (.frame readFrame)) = .next t ∧
      Reachable (t.resetAgain (fun _ => 1)) :=
  ⟨_, rfl, .resetAgain _ _ (.step _ _ (.offer _ (.frame readFrame)
    (.reset Config.params 32 (fun _ => 0) (by decide) (by decide))) rfl)⟩

/-- A run of two steps that serves both ports. -/
theorem witness_RunServesInArrivalOrder :
    (contested readFrame .protocol 1).inFlight = none ∧
      ∃ t, run 2 (contested readFrame .protocol 1) = .next t ∧ t.frames = [] ∧ t.hostOps = [] :=
  ⟨rfl, _, rfl, rfl, rfl⟩

end Sys2Proof.Tests
end

section
/-!
PROOFS. The host operations (40_register_store.md): one equation for each outcome of each operation (R141 to R146),
their bounds and values as plain arithmetic, and the laws of set then get (R149).
-/

namespace Sys2Proof.Machine

/-! ### Halves and bounds as arithmetic -/

theorem lowWord_eq_ofNat (v : DWord) : lowWord v = BitVec.ofNat 16 v.toNat :=
  BitVec.eq_of_toNat_eq (by rw [lowWord_toNat, BitVec.toNat_ofNat])

theorem highWord_eq_ofNat (v : DWord) : highWord v = BitVec.ofNat 16 (v.toNat / 65536) :=
  BitVec.eq_of_toNat_eq (by rw [highWord_toNat, BitVec.toNat_ofNat]; omega)

theorem join32_eq_ofNat (lo hi : Word) : join32 lo hi = BitVec.ofNat 32 (hi.toNat * 65536 + lo.toNat) :=
  BitVec.eq_of_toNat_eq (by rw [join32_toNat, BitVec.toNat_ofNat]; omega)

/-- R62 in wire addresses: the last valid one is `40000 + N`. -/
theorem valid16_iff_range (n : Nat) (a : Word) : valid16 n a ↔ 40001 ≤ a.toNat ∧ a.toNat ≤ 40000 + n := by
  rw [valid16_iff, slot_eq]; omega

/-- R63 in wire addresses: the last valid one is `40000 + N - 1`. -/
theorem valid32_iff_range (n : Nat) (a : Word) : valid32 n a ↔ 40001 ≤ a.toNat ∧ a.toNat < 40000 + n := by
  rw [valid32_iff, slot_eq]; omega

theorem not_valid16_iff_range (n : Nat) (a : Word) : ¬ valid16 n a ↔ a.toNat < 40001 ∨ 40000 + n < a.toNat := by
  rw [valid16_iff_range]; omega

theorem not_valid32_iff_range (n : Nat) (a : Word) : ¬ valid32 n a ↔ a.toNat < 40001 ∨ 40000 + n ≤ a.toNat := by
  rw [valid32_iff_range]; omega

theorem valid16_of_valid32 {n : Nat} {a : Word} (h : valid32 n a) : valid16 n a := by
  rw [valid16_iff_range]; rw [valid32_iff_range] at h; omega

/-- A valid 32-bit access covers the next address too. -/
theorem valid16_next_of_valid32 {n : Nat} {a a' : Word} (h : valid32 n a) (next : a'.toNat = a.toNat + 1) :
    valid16 n a' := by
  rw [valid16_iff_range]; rw [valid32_iff_range] at h; omega

theorem slot_next {a a' : Word} (mapped : 40001 ≤ a.toNat) (next : a'.toNat = a.toNat + 1) :
    slot a' = slot a + 1 := by
  rw [slot_eq, slot_eq]; omega

section
variable (s : State) {a : Word}

/-! ### What each host operation does -/

theorem exec_getU16_of_valid (h : valid16 s.n a) :
    exec (.getU16 a) s = .next (s.returned (.ok16 (s.readWord (slot a)))) := if_pos h

theorem exec_getU16_of_not_valid (h : ¬ valid16 s.n a) :
    exec (.getU16 a) s = .next (s.returned (.err .addressOutOfRange)) := if_neg h

theorem exec_setU16_of_valid (w : DWord) (h : valid16 s.n a) :
    exec (.setU16 a w) s = .next ((s.writeWord (slot a) (lowWord w)).returned .ok) := if_pos h

theorem exec_setU16_of_not_valid (w : DWord) (h : ¬ valid16 s.n a) :
    exec (.setU16 a w) s = .next (s.returned (.err .addressOutOfRange)) := if_neg h

theorem exec_getU32_of_valid (h : valid32 s.n a) :
    exec (.getU32 a) s = .next (s.returned (.ok32 (s.readDouble (slot a)))) := if_pos h

theorem exec_getU32_of_not_valid (h : ¬ valid32 s.n a) :
    exec (.getU32 a) s = .next (s.returned (.err .addressOutOfRange)) := if_neg h

theorem exec_setU32_of_valid (w : DWord) (h : valid32 s.n a) :
    exec (.setU32 a w) s = .next ((s.writeDouble (slot a) w).returned .ok) := if_pos h

theorem exec_setU32_of_not_valid (w : DWord) (h : ¬ valid32 s.n a) :
    exec (.setU32 a w) s = .next (s.returned (.err .addressOutOfRange)) := if_neg h

/-- R145, R147: the float casts are exact, so a float is read as its pattern is. -/
theorem exec_getFloat_eq_getU32 (a : Word) : exec (.getFloat a) s = exec (.getU32 a) s := rfl

/-- R146, R147: the float casts are exact, so a float is stored as its pattern is. -/
theorem exec_setFloat_eq_setU32 (a : Word) (w : DWord) : exec (.setFloat a w) s = exec (.setU32 a w) s := rfl

/-! ### The words after a set -/

@[simp] theorem returned_n (r : HostResult) : (s.returned r).n = s.n := rfl

@[simp] theorem returned_readWord (r : HostResult) (i : Nat) : (s.returned r).readWord i = s.readWord i := rfl

@[simp] theorem returned_readDouble (r : HostResult) (i : Nat) : (s.returned r).readDouble i = s.readDouble i := rfl

theorem readWord_writeDouble_low (i : Nat) (v : DWord) (h : i < s.n) :
    (s.writeDouble i v).readWord i = lowWord v := by
  rw [State.writeDouble, readWord_writeWord_other _ _ _ _ (by omega), readWord_writeWord_same s i _ h]

theorem readWord_writeDouble_high (i : Nat) (v : DWord) (h : i + 1 < s.n) :
    (s.writeDouble i v).readWord (i + 1) = highWord v := by
  rw [State.writeDouble, readWord_writeWord_same _ _ _ (by simpa using h)]

/-! ### Set, then get (R149) -/

theorem exec_getU16_after_writeWord (v : Word) (r : HostResult) (h : valid16 s.n a) :
    exec (.getU16 a) ((s.writeWord (slot a) v).returned r) =
      .next (((s.writeWord (slot a) v).returned r).returned (.ok16 v)) := by
  have hslot : slot a < s.n := ((valid16_iff _ _).mp h).2
  rw [exec_getU16_of_valid _ (by simpa using h), returned_readWord, readWord_writeWord_same s _ _ hslot]

theorem exec_getU32_after_writeDouble (w : DWord) (r : HostResult) (h : valid32 s.n a) :
    exec (.getU32 a) ((s.writeDouble (slot a) w).returned r) =
      .next (((s.writeDouble (slot a) w).returned r).returned (.ok32 w)) := by
  have hslot : slot a + 1 < s.n := ((valid32_iff _ _).mp h).2
  rw [exec_getU32_of_valid _ (by simpa using h), returned_readDouble, readDouble_writeDouble_same s _ _ hslot]

/-- The low half of a 32-bit value stands at its own address. -/
theorem exec_getU16_low_after_writeDouble (w : DWord) (r : HostResult) (h : valid32 s.n a) :
    exec (.getU16 a) ((s.writeDouble (slot a) w).returned r) =
      .next (((s.writeDouble (slot a) w).returned r).returned (.ok16 (lowWord w))) := by
  have hslot : slot a < s.n := ((valid16_iff _ _).mp (valid16_of_valid32 h)).2
  rw [exec_getU16_of_valid _ (by simpa using valid16_of_valid32 h), returned_readWord,
    readWord_writeDouble_low s _ _ hslot]

/-- The high half of a 32-bit value stands at the next address. -/
theorem exec_getU16_high_after_writeDouble {a' : Word} (w : DWord) (r : HostResult) (h : valid32 s.n a)
    (next : a'.toNat = a.toNat + 1) :
    exec (.getU16 a') ((s.writeDouble (slot a) w).returned r) =
      .next (((s.writeDouble (slot a) w).returned r).returned (.ok16 (highWord w))) := by
  obtain ⟨mapped, hslot⟩ := (valid32_iff _ _).mp h
  rw [exec_getU16_of_valid _ (by simpa using valid16_next_of_valid32 h next), returned_readWord,
    slot_next mapped next, readWord_writeDouble_high s _ _ hslot]

end

/-! ### The obligations -/

/-- Settles O32, by the two outcomes of getU16. -/
theorem getU16ReadsOneWord : Obligations.GetU16ReadsOneWord := by
  intro a w s
  refine ⟨rfl, fun lo hi => ?_, fun out => ?_, fun _ => rfl⟩
  · rw [exec_getU16_of_valid s ((valid16_iff_range _ _).mpr ⟨lo, hi⟩), State.readWord, slot_eq]
  · exact exec_getU16_of_not_valid s ((not_valid16_iff_range _ _).mpr out)

/-- Settles O33, by the two outcomes of setU16. -/
theorem setU16WritesOneWord : Obligations.SetU16WritesOneWord := by
  intro a w s
  refine ⟨rfl, fun lo hi => ?_, fun out => ?_⟩
  · rw [exec_setU16_of_valid s w ((valid16_iff_range _ _).mpr ⟨lo, hi⟩), State.writeWord, slot_eq, lowWord_eq_ofNat]
  · exact exec_setU16_of_not_valid s w ((not_valid16_iff_range _ _).mpr out)

/-- Settles O34, by the two outcomes of getU32. -/
theorem getU32JoinsTwoWords : Obligations.GetU32JoinsTwoWords := by
  intro a w s
  refine ⟨rfl, fun lo hi => ?_, fun out => ?_⟩
  · rw [exec_getU32_of_valid s ((valid32_iff_range _ _).mpr ⟨lo, hi⟩), State.readDouble, join32_eq_ofNat, slot_eq,
      State.readWord, State.readWord]
  · exact exec_getU32_of_not_valid s ((not_valid32_iff_range _ _).mpr out)

/-- Settles O35, by the two outcomes of setU32. -/
theorem setU32WritesBothWordsOrNeither : Obligations.SetU32WritesBothWordsOrNeither := by
  intro a w s
  refine ⟨rfl, fun lo hi => ?_, fun out => ?_⟩
  · rw [exec_setU32_of_valid s w ((valid32_iff_range _ _).mpr ⟨lo, hi⟩), State.writeDouble, slot_eq,
      lowWord_eq_ofNat, highWord_eq_ofNat]
    rfl
  · exact exec_setU32_of_not_valid s w ((not_valid32_iff_range _ _).mpr out)

/-- Settles O36: getFloat is getU32, in every state. -/
theorem getFloatReturnsThePattern : Obligations.GetFloatReturnsThePattern := by
  intro a w s
  obtain ⟨-, inside, outside⟩ := getU32JoinsTwoWords a w s
  exact ⟨rfl, inside, outside, exec_getFloat_eq_getU32 s a⟩

/-- Settles O37: setFloat is setU32, in every state. -/
theorem setFloatStoresThePattern : Obligations.SetFloatStoresThePattern := by
  intro a w s
  obtain ⟨-, inside, outside⟩ := setU32WritesBothWordsOrNeither a w s
  rw [exec_setFloat_eq_setU32]
  exact ⟨rfl, inside, outside⟩

/-- Settles O38: both codes fall through to HOST_RESERVED, and the refusal names the code. -/
theorem reservedHostOpIsRefused : Obligations.ReservedHostOpIsRefused := by
  intro o s hop
  have hres : decodeHostOp o = .hostReserved (o.op.getLsbD 0) o.addr o.wdata := by
    rcases hop with h | h
    · simp [decodeHostOp, h]
    · simp [decodeHostOp, h]
  obtain ⟨-, -, hcode⟩ := decodeHostOp_reserved o ⟨_, _, _, hres⟩
  exact ⟨_, hres, by rw [exec, execHostReserved, hcode]⟩

/-- Settles O40, law by law: the three set-then-get laws with the halves, then the two bounds. -/
theorem setThenGetReturnsTheValue : Obligations.SetThenGetReturnsTheValue := by
  intro a a' w s
  refine ⟨fun h => ?_, fun h => ?_, fun h => ?_, fun out => ?_, fun out => ?_⟩
  · exact ⟨_, exec_setU16_of_valid s w h, exec_getU16_after_writeWord s _ _ h⟩
  · exact ⟨_, exec_setU32_of_valid s w h, exec_getU32_after_writeDouble s w _ h,
      exec_getU16_low_after_writeDouble s w _ h, exec_getU16_high_after_writeDouble s w _ h⟩
  · simp only [exec_setFloat_eq_setU32, exec_getFloat_eq_getU32]
    exact ⟨_, exec_setU32_of_valid s w h, exec_getU32_after_writeDouble s w _ h⟩
  · have hv : ¬ valid16 s.n a := (not_valid16_iff_range _ _).mpr (by omega)
    exact ⟨exec_getU16_of_not_valid s hv, exec_setU16_of_not_valid s w hv⟩
  · have hv : ¬ valid32 s.n a := (not_valid32_iff_range _ _).mpr (by omega)
    simp only [exec_setFloat_eq_setU32, exec_getFloat_eq_getU32]
    have hget := exec_getU32_of_not_valid s hv
    have hset := exec_setU32_of_not_valid s w hv
    exact ⟨hget, hset, hget, hset⟩

end Sys2Proof.Machine
end

section
/-!
PROOFS. The frame codec (41_frame_codec.md): what decodeADU accepts (R180 to R184), a decoded frame as the encoding of
its instruction, and the echo that answers a successful write (R191).
-/

namespace Sys2Proof

/-- R180, R190: decodeADU accepts exactly the frames that the frame builder builds from what it returns, where they fit
the buffer and the length field. -/
theorem decodeADU_eq_ok_iff (p : Params) (b : List Byte) (fr : Frame) :
    decodeADU p b = .ok fr ↔
      b = frameBytes p fr.hdr fr.fc fr.payload ∧ b.length ≤ p.maxAdu ∧ lenOf p fr.payload.length < 65536 := by
  constructor
  · exact frameBytes_of_decodeADU p b fr
  · rintro ⟨rfl, fits, len⟩
    rw [frameBytes_length] at fits
    exact decodeADU_frameBytes p p fr.hdr fr.fc fr.payload rfl fits len

/-- The header of a frame, byte by byte, and its payload. -/
theorem eq_header_append_drop (b : List Byte) (h : 8 ≤ b.length) :
    b = [b.getD 0 0, b.getD 1 0, b.getD 2 0, b.getD 3 0, b.getD 4 0, b.getD 5 0, b.getD 6 0, b.getD 7 0] ++
      b.drop 8 := by
  match b, h with
  | _ :: _ :: _ :: _ :: _ :: _ :: _ :: _ :: _, _ => rfl

/-- R184: the length field of a built frame, bytes 4 and 5, read as a number. -/
theorem lengthField_frameBytes (p : Params) (h : Header) (fc : Byte) (payload : List Byte)
    (len : lenOf p payload.length < 65536) :
    ((frameBytes p h fc payload).getD 4 0).toNat * 256 + ((frameBytes p h fc payload).getD 5 0).toNat =
      lenOf p payload.length := by
  rw [← be16_toNat]
  exact be16_ofNat _ len

/-- R183, R184: bytes with protocol id 0 and the right length field are the frame built from their other fields. -/
theorem eq_frameBytes_of_header (p : Params) (b : List Byte) (long : 8 ≤ b.length) (pid0 : b.getD 2 0 = 0)
    (pid1 : b.getD 3 0 = 0)
    (len : (b.getD 4 0).toNat * 256 + (b.getD 5 0).toNat = lenOf p (b.length - 8)) :
    b = frameBytes p { tid0 := b.getD 0 0, tid1 := b.getD 1 0, uid := b.getD 6 0 } (b.getD 7 0) (b.drop 8) := by
  have field : BitVec.ofNat 16 (lenOf p (b.drop 8).length) = be16 (b.getD 4 0) (b.getD 5 0) := by
    rw [List.length_drop, ← len, ← be16_toNat, BitVec.ofNat_toNat, BitVec.setWidth_eq]
  have parts := eq_header_append_drop b long
  rw [pid0, pid1] at parts
  rw [frameBytes, field, hi8_be16, lo8_be16]
  exact parts

/-- Settles O23: each direction goes through the frame that is built from the returned fields. -/
theorem decodeADUAcceptsExactly : Obligations.DecodeADUAcceptsExactly := by
  intro p b fr
  rw [decodeADU_eq_ok_iff]
  constructor
  · rintro ⟨rfl, fits, len⟩
    have size := frameBytes_length p fr.hdr fr.fc fr.payload
    refine ⟨by omega, fits, rfl, rfl, ?_, rfl⟩
    rw [lengthField_frameBytes p _ _ _ len, size, Nat.add_sub_cancel_left]
  · rintro ⟨long, fits, pid0, pid1, len, rfl⟩
    refine ⟨eq_frameBytes_of_header p b long pid0 pid1 len, fits, ?_⟩
    have hi := (b.getD 4 0).isLt
    have lo := (b.getD 5 0).isLt
    rw [List.length_drop]
    omega

/-- A frame that decodes is what its instruction is encoded as (R93, R186, R221). -/
theorem encode_of_decodeFrame (p : Params) (b : List Byte) (i : Instr) (h : decodeFrame p b = .ok i) :
    encode p i = .frame b := by
  obtain ⟨fr, hadu, hpdu, -⟩ := Machine.header_of_decodeFrame p b i h
  obtain ⟨hb, -, -⟩ := frameBytes_of_decodeADU p b fr hadu
  rcases parsePDU_cases fr i hpdu with ⟨hfc, a, q, rfl, hpl⟩ | ⟨hfc, a, q, rfl, hpl⟩ | ⟨hfc, a, v, rfl, hpl⟩ |
    ⟨hfc, a, q, bc, data, rfl, hpl, -⟩ | ⟨-, rfl⟩
  · rw [hb, hfc, hpl, encode]
  · rw [hb, hfc, hpl, encode]
  · rw [hb, hfc, hpl, encode]
  · rw [hb, hfc, hpl, encode]
  · rw [hb, encode]

namespace Machine

section
variable (s : State) (h : Header)

/-- R286: a response that taking an exception ends in has bit 7 of its function byte set. -/
theorem bit7_of_raise_response (fc : Byte) (e : ErrorKind) (bytes : List Byte)
    (hout : (s.raise h fc e).outcomes = s.outcomes ++ [.response bytes]) : 0x80 ≤ bytes.getD 7 0 := by
  unfold State.raise at hout
  split at hout
  · rw [emit_outcomes] at hout
    cases List.append_cancel_left hout
    rw [encodeException, frameBytes_getD_seven]
    exact bit7_set fc
  · rw [drop_outcomes] at hout
    cases List.append_cancel_left hout

/-- How a write instruction can end: with its two 16-bit fields echoed, `s'` being `s` with the words written, or in an
exception. -/
inductive EchoOrException (fc : Byte) (x y : Word) : Host.Outcome State Fault Refusal → Prop
  | echo (s' : State) (same : s'.outcomes = s.outcomes) :
      EchoOrException fc x y (.next (s'.emit (twoWordFrame s.params h fc x y)))
  | exception (e : ErrorKind) : EchoOrException fc x y (.next (s.raise h fc e))

theorem exec_writeSingleRegister_ends (a v : Word) :
    EchoOrException s h 0x06 a v (exec (.writeSingleRegister h a v) s) := by
  simp only [exec, execWriteSingleRegister, ← twoWordFrame_eq]
  split
  · exact .echo _ (writeWord_outcomes s _ v)
  · exact .exception _

theorem exec_writeMultipleRegisters_ends (a q : Word) (bc : Byte) (data : List Byte) :
    EchoOrException s h 0x10 a q (exec (.writeMultipleRegisters h a q bc data) s) := by
  simp only [exec, execWriteMultipleRegisters, ← twoWordFrame_eq]
  split
  · exact .exception _
  split
  · exact .exception _
  split
  · exact .echo _ (writeWords_outcomes s _ _)
  · exact .exception _

variable {s h}

/-- A normal response of a write instruction is the echo of its fields. -/
theorem EchoOrException.response_eq {fc : Byte} {x y : Word} {t : State} {bytes : List Byte}
    (ends : EchoOrException s h fc x y (.next t)) (hout : t.outcomes = s.outcomes ++ [.response bytes])
    (normal : bytes.getD 7 0 < 0x80) : bytes = twoWordFrame s.params h fc x y := by
  cases ends with
  | echo s' same =>
    rw [emit_outcomes, same] at hout
    cases List.append_cancel_left hout
    rfl
  | exception e => exact absurd normal (BitVec.not_lt.mpr (bit7_of_raise_response s h fc e bytes hout))

end

/-- Settles O50: a normal response is the echo of the instruction's fields, and the frame is the instruction's
encoding. -/
theorem writesEchoTheRequest : Obligations.WritesEchoTheRequest := by
  intro b i s t bytes hdec hexec hout normal
  have henc := encode_of_decodeFrame s.params b i hdec
  constructor
  · rintro h a v rfl
    have ends := exec_writeSingleRegister_ends s h a v
    rw [hexec] at ends
    cases henc
    rw [ends.response_eq hout normal, twoWordFrame_eq]
  · rintro h a q bc data rfl
    have ends := exec_writeMultipleRegisters_ends s h a q bc data
    rw [hexec] at ends
    cases henc
    rw [ends.response_eq hout normal]
    rfl

end Machine

end Sys2Proof
end

section
/-!
PROOFS. The request processor (42_request_processor.md): the request frame that carries each protocol instruction
(R93, R186), one equation for each outcome of each (R222 to R226), and the ranges as plain arithmetic (R64).
-/

namespace Sys2Proof

/-! ### The frame that carries a request -/

/-- R220: the second stage of the decoder reads what the first accepted. -/
theorem decodeFrame_of_decodeADU {p : Params} {b : List Byte} {fr : Frame} (h : decodeADU p b = .ok fr) :
    decodeFrame p b = parsePDU fr := by
  rw [decodeFrame, h]

theorem decodeFrame_frameBytes (p : Params) (h : Header) (fc : Byte) (payload : List Byte)
    (fits : p.fitsBuffer payload.length) (len : p.fitsLengthField payload.length) :
    decodeFrame p (frameBytes p h fc payload) = parsePDU { hdr := h, fc := fc, payload := payload } :=
  decodeFrame_of_decodeADU (decodeADU_frameBytes p p h fc payload rfl fits len)

/-- A frame with two 16-bit fields has 12 bytes, which every legal MAX_ADU admits (D4). -/
theorem decodeFrame_twoWordFrame {p : Params} (legal : p.Legal) (h : Header) (fc : Byte) (x y : Word) :
    decodeFrame p (Machine.twoWordFrame p h fc x y) =
      parsePDU { hdr := h, fc := fc, payload := wordBytes x ++ wordBytes y } := by
  rw [Machine.twoWordFrame_eq]
  exact decodeFrame_frameBytes p h fc _ legal.1 (Laws.Accepted.lenOf_small p 4 (by decide))

theorem parseTwoWords_wordBytes (x y : Word) (k : Word → Word → Instr) :
    parseTwoWords (wordBytes x ++ wordBytes y) k = .ok (k x y) := by
  simp [parseTwoWords, wordBytes]

theorem parsePDU_readHoldingRegisters (h : Header) (a q : Word) :
    parsePDU { hdr := h, fc := 0x03, payload := wordBytes a ++ wordBytes q } = .ok (.readHoldingRegisters h a q) :=
  parseTwoWords_wordBytes a q _

theorem parsePDU_readHoldingRegisters04 (h : Header) (a q : Word) :
    parsePDU { hdr := h, fc := 0x04, payload := wordBytes a ++ wordBytes q } = .ok (.readHoldingRegisters04 h a q) :=
  parseTwoWords_wordBytes a q _

theorem parsePDU_writeSingleRegister (h : Header) (a v : Word) :
    parsePDU { hdr := h, fc := 0x06, payload := wordBytes a ++ wordBytes v } = .ok (.writeSingleRegister h a v) :=
  parseTwoWords_wordBytes a v _

/-- R186: the byte count is held against the data alone, not against the quantity. -/
theorem parsePDU_writeMultipleRegisters (h : Header) (a q : Word) {bc : Byte} {data : List Byte}
    (counts : data.length = bc.toNat) :
    parsePDU { hdr := h, fc := 0x10, payload := wordBytes a ++ wordBytes q ++ bc :: data } =
      .ok (.writeMultipleRegisters h a q bc data) := by
  change parseWriteN h (hi8 a :: lo8 a :: hi8 q :: lo8 q :: bc :: data) = _
  rw [parseWriteN, if_pos counts, be16_hi8_lo8, be16_hi8_lo8]

/-- R186: a function code that is not supported is never dropped for its payload. -/
theorem parsePDU_illegalFunction (h : Header) {fc : Byte} (payload : List Byte)
    (h03 : fc ≠ 0x03) (h04 : fc ≠ 0x04) (h06 : fc ≠ 0x06) (h10 : fc ≠ 0x10) :
    parsePDU { hdr := h, fc := fc, payload := payload } = .ok (.illegalFunction h fc payload) := by
  simp only [parsePDU, h03, h04, h06, h10, if_false]

namespace Machine

/-! ### Ranges as arithmetic -/

/-- R64 in wire addresses, on unbounded integers. -/
theorem validRange_iff_range (n : Nat) (a : Word) (q : Nat) :
    validRange n a q ↔ 40001 ≤ a.toNat ∧ a.toNat - 40001 + q ≤ n := by
  rw [validRange_iff, slot_eq]

theorem not_validRange_iff_range (n : Nat) (a : Word) (q : Nat) :
    ¬ validRange n a q ↔ a.toNat < 40001 ∨ n < a.toNat - 40001 + q := by
  rw [validRange_iff_range]; omega

theorem quantity_ne_zero {q : Word} (h : 1 ≤ q.toNat) : q ≠ 0 := by
  rintro rfl
  exact absurd h (by decide)

section
variable (s : State) (h : Header) {a q : Word}

/-! ### Read Holding Registers (R222, R223) -/

/-- The response to a read, its bytes written out: a legal store is small enough for a one-byte length field. -/
theorem readRegisters_of_valid (fc : Byte) (size : s.n ≤ 125) (pos : 1 ≤ q.toNat)
    (valid : validRange s.n a q.toNat) :
    readRegisters h fc a q s = .next (s.answered
      ([h.tid0, h.tid1, 0, 0, 0, BitVec.ofNat 8 (lenOf s.params (1 + 2 * q.toNat)), h.uid, fc,
          BitVec.ofNat 8 (2 * q.toNat)] ++
        ((s.store.drop (a.toNat - 40001)).take q.toNat).flatMap fun w => [hi8 w, lo8 w])) := by
  obtain ⟨-, inside⟩ := (validRange_iff _ _ _).mp valid
  have payload_length : (BitVec.ofNat 8 (2 * q.toNat) :: wordsToBytes (s.readWords (slot a) q.toNat)).length =
      1 + 2 * q.toNat := by
    rw [List.length_cons, wordsToBytes_length, readWords_length, Nat.add_comm]
  rw [readRegisters, if_neg (quantity_ne_zero pos), if_pos valid, emit_eq_answered,
    frameBytes_small _ _ _ _ (by omega), payload_length, wordsToBytes_eq_flatMap,
    readWords_eq_slice s _ _ inside, slot_eq]
  rfl

theorem readRegisters_of_quantity_zero (fc : Byte) (zero : q.toNat = 0) :
    readRegisters h fc a q s = .next (s.answered (exceptionFrame s.params h fc 3)) := by
  rw [readRegisters, if_pos (BitVec.eq_of_toNat_eq zero), raise_quantityMismatch, emit_exception]

theorem readRegisters_of_not_valid (fc : Byte) (pos : 1 ≤ q.toNat) (out : ¬ validRange s.n a q.toNat) :
    readRegisters h fc a q s = .next (s.answered (exceptionFrame s.params h fc 2)) := by
  rw [readRegisters, if_neg (quantity_ne_zero pos), if_neg out, raise_addressOutOfRange, emit_exception]

/-! ### Write Single Register (R224) -/

theorem exec_writeSingleRegister_of_valid (v : Word) (valid : valid16 s.n a) :
    exec (.writeSingleRegister h a v) s =
      .next ((s.writeWord (slot a) v).answered (twoWordFrame s.params h 0x06 a v)) := by
  rw [exec, execWriteSingleRegister, if_pos valid, emit_eq_answered, twoWordFrame_eq]

theorem exec_writeSingleRegister_of_not_valid (v : Word) (out : ¬ valid16 s.n a) :
    exec (.writeSingleRegister h a v) s = .next (s.answered (exceptionFrame s.params h 0x06 2)) := by
  rw [exec, execWriteSingleRegister, if_neg out, raise_addressOutOfRange, emit_exception]

/-! ### Write Multiple Registers (R225) -/

variable {bc : Byte} (data : List Byte)

theorem exec_writeMultipleRegisters_of_valid (pos : 1 ≤ q.toNat) (count : bc.toNat = 2 * q.toNat)
    (valid : validRange s.n a q.toNat) :
    exec (.writeMultipleRegisters h a q bc data) s =
      .next ((s.writeWords (slot a) (dataWords data q.toNat)).answered (twoWordFrame s.params h 0x10 a q)) := by
  rw [exec, execWriteMultipleRegisters, if_neg (quantity_ne_zero pos), if_neg (not_not.mpr count), if_pos valid,
    emit_eq_answered, twoWordFrame_eq]

/-- R228: the byte count is held against `2q` on unbounded integers. -/
theorem exec_writeMultipleRegisters_of_mismatch (mismatch : q.toNat = 0 ∨ bc.toNat ≠ 2 * q.toNat) :
    exec (.writeMultipleRegisters h a q bc data) s = .next (s.answered (exceptionFrame s.params h 0x10 3)) := by
  rw [exec, execWriteMultipleRegisters, raise_quantityMismatch, emit_exception]
  split
  · rfl
  · rename_i nonzero
    rw [if_pos (mismatch.resolve_left fun zero => nonzero (BitVec.eq_of_toNat_eq zero))]

theorem exec_writeMultipleRegisters_of_not_valid (pos : 1 ≤ q.toNat) (count : bc.toNat = 2 * q.toNat)
    (out : ¬ validRange s.n a q.toNat) :
    exec (.writeMultipleRegisters h a q bc data) s = .next (s.answered (exceptionFrame s.params h 0x10 2)) := by
  rw [exec, execWriteMultipleRegisters, if_neg (quantity_ne_zero pos), if_neg (not_not.mpr count), if_neg out,
    raise_addressOutOfRange, emit_exception]

variable {data}

/-- Word `k` of the range a multiple write stores. -/
theorem readWord_writeWords_dataWords {i n k : Nat} (fits : i + n ≤ s.n) (hk : k < n) :
    (s.writeWords i (dataWords data n)).readWord (i + k) = dataWord data k := by
  rw [readWord_writeWords s _ _ (by rwa [dataWords_length]), dataWords_length, if_pos (by omega),
    Nat.add_sub_cancel_left, dataWords_getD _ _ _ hk]

/-! ### Illegal Function (R226) -/

theorem exec_illegalFunction (fc : Byte) (payload : List Byte) :
    exec (.illegalFunction h fc payload) s = .next (s.answered (exceptionFrame s.params h fc 1)) := by
  rw [exec, execIllegalFunction, raise_unsupportedFunction, emit_exception]

end

/-! ### The obligations -/

/-- Settles O27: the two codes decode to their own instruction and run one operation, with its three outcomes. -/
theorem readHoldingRegistersReadsTheRange : Obligations.ReadHoldingRegistersReadsTheRange := by
  intro h a q s fc i build code
  obtain ⟨⟨-, size⟩, legal⟩ := build
  have decodes : parsePDU { hdr := h, fc := fc, payload := wordBytes a ++ wordBytes q } = .ok i := by
    rcases code with ⟨rfl, rfl⟩ | ⟨rfl, rfl⟩
    · exact parsePDU_readHoldingRegisters h a q
    · exact parsePDU_readHoldingRegisters04 h a q
  have runs : exec i s = readRegisters h fc a q s := by
    rcases code with ⟨rfl, rfl⟩ | ⟨rfl, rfl⟩
    · rfl
    · rfl
  rw [decodeFrame_twoWordFrame legal, runs]
  refine ⟨decodes, fun pos lo hi => ?_, fun zero => ?_, fun pos out => ?_⟩
  · exact readRegisters_of_valid s h fc size pos ((validRange_iff_range _ _ _).mpr ⟨lo, hi⟩)
  · exact readRegisters_of_quantity_zero s h fc zero
  · exact readRegisters_of_not_valid s h fc pos ((not_validRange_iff_range _ _ _).mpr out)

/-- Settles O29, by the two outcomes of a single write. -/
theorem writeSingleRegisterStoresAndEchoes : Obligations.WriteSingleRegisterStoresAndEchoes := by
  intro h a v s build
  obtain ⟨-, legal⟩ := build
  refine ⟨?_, fun lo hi => ?_, fun out => ?_⟩
  · rw [decodeFrame_twoWordFrame legal, parsePDU_writeSingleRegister]
  · rw [exec_writeSingleRegister_of_valid s h v ((valid16_iff_range _ _).mpr ⟨lo, hi⟩), State.writeWord, slot_eq]
  · exact exec_writeSingleRegister_of_not_valid s h v ((not_valid16_iff_range _ _).mpr out)

/-- Settles O30, by the three outcomes of a multiple write; the stored words are those of `writeWords`. -/
theorem writeMultipleRegistersStoresTheRange : Obligations.WriteMultipleRegistersStoresTheRange := by
  intro h a q bc data s _ counts
  refine ⟨fun fits => ?_, fun pos count lo hi => ?_, fun mismatch => ?_, fun pos count out => ?_⟩
  · have payload_length : (wordBytes a ++ wordBytes q ++ bc :: data).length = 5 + bc.toNat := by
      simp [wordBytes, counts]; omega
    have decodes := decodeFrame_frameBytes s.params h 0x10 (wordBytes a ++ wordBytes q ++ bc :: data)
      (by omega) (Laws.Accepted.lenOf_small _ _ (by omega))
    rw [parsePDU_writeMultipleRegisters h a q counts, frameBytes, payload_length] at decodes
    exact decodes
  · have inside : a.toNat - 40001 + (dataWords data q.toNat).length ≤ s.n := by rwa [dataWords_length]
    obtain ⟨onlyStore, sameLength⟩ := writeWords_eq s (a.toNat - 40001) (dataWords data q.toNat)
    refine ⟨(s.writeWords (a.toNat - 40001) (dataWords data q.toNat)).store, ?_, sameLength,
      fun k hk => readWord_writeWords_dataWords s hi hk, fun j out => ?_⟩
    · rw [exec_writeMultipleRegisters_of_valid s h data pos count ((validRange_iff_range _ _ _).mpr ⟨lo, hi⟩),
        slot_eq, ← onlyStore]
    · exact readWord_writeWords_outside s _ _ inside j (by rwa [dataWords_length])
  · exact exec_writeMultipleRegisters_of_mismatch s h data mismatch
  · exact exec_writeMultipleRegisters_of_not_valid s h data pos count ((not_validRange_iff_range _ _ _).mpr out)

/-- Settles O31: no supported code matches, and the exception is the instruction's whole effect. -/
theorem illegalFunctionIsAnswered : Obligations.IllegalFunctionIsAnswered := by
  intro h fc payload s h03 h04 h06 h10
  refine ⟨fun b accepted => ?_, exec_illegalFunction s h fc payload⟩
  rw [decodeFrame_of_decodeADU accepted, parsePDU_illegalFunction h payload h03 h04 h06 h10]

end Machine

end Sys2Proof
end

section
/-!
PROOFS. Reset and hazards (70_reset_and_hazards.md): the store a reset leaves (R320, R321), a read of one of its words
on either port, and the build parameters that no operation changes (R36, R323).
-/

namespace Sys2Proof.Machine

/-! ### The store after a reset -/

section
variable {n i : Nat} (p : Params) (s : State) (init : Nat → Word)

@[simp] theorem resetWith_n : (State.resetWith p n init).n = n := by simp [State.n, State.resetWith]

theorem resetWith_readWord (h : i < n) : (State.resetWith p n init).readWord i = init i := by
  simp [State.readWord, State.resetWith, h]

theorem resetAgain_readWord (h : i < s.n) : (s.resetAgain init).readWord i = init i :=
  resetWith_readWord s.params init h

end

section
variable (s : State)

/-! ### A read of one word on the protocol port (R222) -/

/-- A word that getU16 may read may be read with quantity 1. -/
theorem validRange_one_of_valid16 {n : Nat} {a : Word} (h : valid16 n a) : validRange n a 1 := by
  rw [valid16_iff] at h; rwa [validRange_iff]

/-- The response to a read of one word, its bytes written out; it is short enough for every build. -/
theorem readRegisters_one_of_valid (h : Header) (fc : Byte) {a : Word} (valid : valid16 s.n a) :
    readRegisters h fc a 1 s = .next (s.answered
      [h.tid0, h.tid1, 0, 0, 0, BitVec.ofNat 8 (lenOf s.params 3), h.uid, fc, 2,
        hi8 (s.readWord (slot a)), lo8 (s.readWord (slot a))]) := by
  have range : validRange s.n a (1 : Word).toNat := validRange_one_of_valid16 valid
  rw [readRegisters, if_neg (by decide), if_pos range, emit_eq_answered,
    frameBytes_small _ _ _ _ (by simp [wordsToBytes_length])]
  rfl

/-! ### The build parameters (R36) -/

/-- Taking the next operation, whether one is in progress or not, changes no build parameter. -/
theorem select_keeps_build {x : Transaction} {s' : State} (h : s.select = some (x, s')) :
    s'.params = s.params ∧ s'.n = s.n := by
  cases inFlight : s.inFlight with
  | some y =>
    rw [State.select, inFlight] at h
    cases h
    exact ⟨rfl, rfl⟩
  | none =>
    obtain ⟨s₁, same, taken⟩ := select_cases s x s' inFlight h
    obtain ⟨params, -, -, -, -, -, -, -, size⟩ := same.fields
    rcases taken with ⟨b, bs, -, -, rfl⟩ | ⟨o, os, -, -, rfl⟩
    · exact ⟨params, size⟩
    · exact ⟨params, size⟩

/-- A whole transaction only writes words in place, and ends its port's operation. -/
theorem runTransaction_keeps_build {x : Transaction} {t : State} (h : runTransaction x s = .next t) :
    t.params = s.params ∧ t.n = s.n := by
  cases x with
  | frame b =>
    rcases runFrame_cases s b with ⟨dropped, -⟩ | ⟨i, hdr, ws, fc, pl, -, -, answered, -⟩
    · rw [dropped] at h
      cases h
      exact ⟨rfl, rfl⟩
    · rw [answered] at h
      cases h
      simp
  | hostOp o =>
    rcases runHostOp_cases s o with ⟨-, r, refused⟩ | ⟨ws, r, returned, -⟩
    · rw [refused] at h
      cases h
    · rw [returned] at h
      cases h
      simp

/-- Every step, from every state. -/
theorem step_keeps_build {t : State} (h : step s = .next t) : t.params = s.params ∧ t.n = s.n := by
  cases taken : s.select with
  | none =>
    rw [step, taken] at h
    cases h
    exact ⟨rfl, rfl⟩
  | some xs =>
    obtain ⟨x, s'⟩ := xs
    rw [step, taken] at h
    obtain ⟨params, size⟩ := select_keeps_build s taken
    obtain ⟨params', size'⟩ := runTransaction_keeps_build s' h
    exact ⟨params'.trans params, size'.trans size⟩

end

/-! ### The obligations -/

/-- Settles O2: a mapped address is a valid one, and both ports read the word that the reset put there. -/
theorem readAfterResetReturnsInitStore : Obligations.ReadAfterResetReturnsInitStore := by
  intro p n init h a _ _ lo hi
  have valid : valid16 (State.resetWith p n init).n a := by
    rw [resetWith_n]
    exact (valid16_iff_range n a).mpr ⟨lo, hi⟩
  have word : (State.resetWith p n init).readWord (a.toNat - 40001) = init (a.toNat - 40001) :=
    resetWith_readWord p init (by omega)
  refine ⟨word, ?_, ?_⟩
  · rw [exec_getU16_of_valid _ valid, slot_eq, word]
  · rw [exec, execReadHoldingRegisters, readRegisters_one_of_valid _ h 0x03 valid, slot_eq, word]
    rfl

/-- Settles O5: a reset keeps the parameters and the store's length, and so does every step. -/
theorem buildParametersNeverChange : Obligations.BuildParametersNeverChange := by
  intro s init
  exact ⟨⟨resetAgain_params s init, resetAgain_n s init⟩, fun t next => step_keeps_build s next⟩

/-- Settles O1: both resets leave the same state but for the arbiter, with INIT_STORE in its store. -/
theorem resetLeavesPortsIdle : Obligations.ResetLeavesPortsIdle := by
  rintro s t p n init (rfl | ⟨rfl, rfl⟩)
  · exact ⟨rfl, rfl, rfl, rfl, resetWith_n p init, fun i hi => resetWith_readWord p init hi⟩
  · exact ⟨rfl, rfl, rfl, rfl, resetAgain_n s init, fun i hi => resetAgain_readWord s init hi⟩

end Sys2Proof.Machine
end

section
/-!
PROOFS. The round trip of decoder and encoder (30_encoding.md, 41_frame_codec.md): what each payload parser drops
(R186), the encoder as a right and a left inverse of the decoder, and encodings written out (R101, R102).
-/

namespace Sys2Proof

/-! ### What the payload parsers drop (R186) -/

theorem parseTwoWords_error_iff (payload : List Byte) (k : Word → Word → Instr) :
    (∃ e, parseTwoWords payload k = .error e) ↔ payload.length ≠ 4 := by
  unfold parseTwoWords
  split
  · simp
  · rename_i not_four
    refine iff_of_true ⟨_, rfl⟩ fun four => ?_
    obtain ⟨x0, x1, y0, y1, rfl⟩ := List.length_eq_four.mp four
    exact not_four _ _ _ _ rfl

theorem parseWriteN_error_iff (h : Header) (payload : List Byte) :
    (∃ e, parseWriteN h payload = .error e) ↔
      payload.length < 5 ∨ payload.length ≠ 5 + (payload.getD 4 0).toNat := by
  match payload with
  | a0 :: a1 :: q0 :: q1 :: bc :: data =>
    have drops : (∃ e, parseWriteN h (a0 :: a1 :: q0 :: q1 :: bc :: data) = .error e) ↔ data.length ≠ bc.toNat := by
      rw [parseWriteN]
      split <;> simp [*]
    rw [drops]
    simp
    omega
  | [] | [_] | [_, _] | [_, _, _] | [_, _, _, _] => simp [parseWriteN]

/-- Settles O24: the function code selects the parser, and each parser drops its own lengths. -/
theorem parsePDUDropsExactly : Obligations.ParsePDUDropsExactly := by
  rintro ⟨h, fc, payload⟩
  by_cases h03 : fc = 0x03
  · subst h03
    exact (parseTwoWords_error_iff payload (.readHoldingRegisters h)).trans (by simp)
  by_cases h04 : fc = 0x04
  · subst h04
    exact (parseTwoWords_error_iff payload (.readHoldingRegisters04 h)).trans (by simp)
  by_cases h06 : fc = 0x06
  · subst h06
    exact (parseTwoWords_error_iff payload (.writeSingleRegister h)).trans (by simp)
  by_cases h10 : fc = 0x10
  · subst h10
    exact (parseWriteN_error_iff h payload).trans (by simp)
  · rw [parsePDU_illegalFunction h payload h03 h04 h06 h10]
    exact iff_of_false (by simp) (by tauto)

/-! ### Decode of encode -/

/-- A request with two 16-bit fields decodes to what its function code makes of them. -/
theorem decode_frame_twoWords {p : Params} (fits : p.fitsBuffer 4) (h : Header) (fc : Byte) (x y : Word) :
    decode p (.frame (frameBytes p h fc (wordBytes x ++ wordBytes y))) =
      parsePDU { hdr := h, fc := fc, payload := wordBytes x ++ wordBytes y } :=
  decodeFrame_frameBytes p h fc _ fits (Laws.Accepted.lenOf_small p 4 (by decide))

/-- Settles O21: the frame builder's frame passes decodeADU, and parsePDU reads the payload back. -/
theorem decodeOfEncode : Obligations.DecodeOfEncode := by
  intro p i wf
  cases i with
  | readHoldingRegisters h a q =>
    rw [encode, decode_frame_twoWords (of_decide_eq_true wf), parsePDU_readHoldingRegisters]
  | readHoldingRegisters04 h a q =>
    rw [encode, decode_frame_twoWords (of_decide_eq_true wf), parsePDU_readHoldingRegisters04]
  | writeSingleRegister h a v =>
    rw [encode, decode_frame_twoWords (of_decide_eq_true wf), parsePDU_writeSingleRegister]
  | writeMultipleRegisters h a q bc data =>
    obtain ⟨counts, fits⟩ := of_decide_eq_true wf
    have payload_length : (wordBytes a ++ wordBytes q ++ bc :: data).length = 5 + bc.toNat := by
      simp [wordBytes, counts]; omega
    rw [encode, decode, decodeFrame_frameBytes _ _ _ _ (by rwa [payload_length])
      (Laws.Accepted.lenOf_small _ _ (by omega)), parsePDU_writeMultipleRegisters h a q counts]
  | illegalFunction h fc payload =>
    obtain ⟨unsupported, fits, len⟩ := of_decide_eq_true wf
    simp only [supportedFunctions, List.mem_cons, List.not_mem_nil, or_false, not_or] at unsupported
    obtain ⟨h03, h04, h06, h10⟩ := unsupported
    rw [encode, decode, decodeFrame_frameBytes p h fc payload fits len,
      parsePDU_illegalFunction h payload h03 h04 h06 h10]
  | getU16 a => rfl
  | setU16 a w => rfl
  | getU32 a => rfl
  | setU32 a w => rfl
  | getFloat a => rfl
  | setFloat a w => rfl
  | hostReserved r a w =>
    cases r with
    | false => simp [encode, decode, decodeHostOp]
    | true => simp [encode, decode, decodeHostOp]

/-! ### Encode of decode -/

/-- What parsePDU makes of a frame that fits is well-formed. -/
theorem wellFormed_of_parsePDU {p : Params} {fr : Frame} {i : Instr} (parsed : parsePDU fr = .ok i)
    (fits : p.fitsBuffer fr.payload.length) (len : p.fitsLengthField fr.payload.length) : i.wellFormed p = true := by
  rcases parsePDU_cases fr i parsed with ⟨-, a, q, rfl, hpl⟩ | ⟨-, a, q, rfl, hpl⟩ | ⟨-, a, v, rfl, hpl⟩ |
    ⟨-, a, q, bc, data, rfl, hpl, counts⟩ | ⟨unsupported, rfl⟩
  · rw [hpl] at fits
    exact decide_eq_true fits
  · rw [hpl] at fits
    exact decide_eq_true fits
  · rw [hpl] at fits
    exact decide_eq_true fits
  · have payload_length : fr.payload.length = 5 + bc.toNat := by
      simp [hpl, wordBytes, counts]; omega
    rw [payload_length] at fits
    exact decide_eq_true ⟨counts, fits⟩
  · exact decide_eq_true ⟨unsupported, fits, len⟩

/-- Settles O22: decodeADU takes apart a frame the frame builder builds, and parsePDU loses nothing of it. -/
theorem encodeOfDecodedFrame : Obligations.EncodeOfDecodedFrame := by
  intro p b i decoded
  refine ⟨encode_of_decodeFrame p b i decoded, ?_⟩
  obtain ⟨fr, accepted, parsed, -⟩ := Machine.header_of_decodeFrame p b i decoded
  obtain ⟨hb, fits, len⟩ := frameBytes_of_decodeADU p b fr accepted
  rw [hb, frameBytes_length] at fits
  exact wellFormed_of_parsePDU parsed fits len

/-! ### Encodings written out -/

/-- Settles O20: one row of the host table for each op code. -/
theorem hostOpFieldSelectsOperation : Obligations.HostOpFieldSelectsOperation := by
  intro a w
  refine ⟨rfl, rfl, rfl, rfl, rfl, rfl, ?_, ?_⟩
  · simp [decodeHostOp]
  · simp [decodeHostOp]

/-- Settles O25, by running the decoder on each frame. -/
theorem writtenOutWordsDecode : Obligations.WrittenOutWordsDecode := by
  unfold Obligations.WrittenOutWordsDecode
  decide

/-- A multiple write with its words spelled out, whatever its byte count says. -/
theorem encode_wrmrCounted (p : Params) (tid : Word) (uid : Byte) (a q : Word) (bc : Byte) (words : List Word) :
    encode p (wrmrCounted tid uid a q bc words) =
      .frame ([hi8 tid, lo8 tid, 0, 0, hi8 (BitVec.ofNat 16 (lenOf p (5 + 2 * words.length))),
        lo8 (BitVec.ofNat 16 (lenOf p (5 + 2 * words.length))), uid, 0x10, hi8 a, lo8 a, hi8 q, lo8 q, bc] ++
          words.flatMap fun w => [hi8 w, lo8 w]) := by
  have payload_length : (wordBytes a ++ wordBytes q ++ bc :: wordsToBytes words).length = 5 + 2 * words.length := by
    simp [wordBytes, wordsToBytes_length]; omega
  rw [wrmrCounted, encode, frameBytes, payload_length, wordsToBytes_eq_flatMap]
  rfl

/-- Settles O26: each expansion is the frame builder's, with its header bytes written out. -/
theorem symbolicRequestsExpand : Obligations.SymbolicRequestsExpand := by
  intro p tid uid a x words bc fc payload
  have twoWords (code : Byte) : frameBytes p (header tid uid) code (wordBytes a ++ wordBytes x) =
      [hi8 tid, lo8 tid, 0, 0, 0, BitVec.ofNat 8 (lenOf p 4), uid, code, hi8 a, lo8 a, hi8 x, lo8 x] :=
    (Machine.twoWordFrame_eq p (header tid uid) code a x).symm
  refine ⟨congrArg _ (twoWords 0x03), congrArg _ (twoWords 0x04), congrArg _ (twoWords 0x06), ?_, ?_, rfl⟩
  · exact encode_wrmrCounted p tid uid a x bc words
  · exact encode_wrmrCounted p tid uid a x _ words

end Sys2Proof
end

section
/-!
PROOFS. What an instruction depends on and what it leaves alone (42_request_processor.md, 40_register_store.md): the
words it stores, if any, are fixed by its operands; its answer is fixed by its operands and the store (R34, R230); its
opaque bytes are only echoed (R185).
-/

namespace Sys2Proof

open Machine

/-- The words an instruction stores when it stores any (R142, R144, R146, R224, R225). -/
def Instr.words : Instr → List Word
  | .writeSingleRegister _ _ v => [v]
  | .writeMultipleRegisters _ _ q _ data => dataWords data q.toNat
  | .setU16 _ w => [lowWord w]
  | .setU32 _ w => [lowWord w, highWord w]
  | .setFloat _ w => [lowWord w, highWord w]
  | _ => []

theorem Instr.words_length (i : Instr) : i.words.length = i.written.2 := by
  cases i with
  | writeMultipleRegisters h a q bc data => exact dataWords_length data q.toNat
  | _ => rfl

/-- The function code of a protocol instruction's request (R96). A host operation has none. -/
def Instr.functionCode : Instr → Byte
  | .readHoldingRegisters _ _ _ => 0x03
  | .readHoldingRegisters04 _ _ _ => 0x04
  | .writeSingleRegister _ _ _ => 0x06
  | .writeMultipleRegisters _ _ _ _ _ => 0x10
  | .illegalFunction _ fc _ => fc
  | _ => 0

/-- A protocol instruction's request carries its opaque bytes and its function code. -/
theorem encode_protocol (p : Params) {i : Instr} {h : Header} (hi : i.header? = some h) :
    ∃ payload, encode p i = .frame (frameBytes p h i.functionCode payload) := by
  cases i <;> cases hi <;> exact ⟨_, rfl⟩

theorem Instr.withHeader_self {i : Instr} {h : Header} (hi : i.header? = some h) : i.withHeader h = i := by
  cases i <;> cases hi <;> rfl

namespace Machine

/-! ### What depends on the store alone, and words written twice -/

section
variable {s s' : State} (k : Nat) (ws : List Word)

theorem readWord_congr (same : s.store = s'.store) (i : Nat) : s.readWord i = s'.readWord i := by
  simp only [State.readWord, same]

theorem readDouble_congr (same : s.store = s'.store) (i : Nat) : s.readDouble i = s'.readDouble i := by
  simp only [State.readDouble, State.readWord, same]

theorem readWords_congr (same : s.store = s'.store) (q : Nat) : s.readWords k q = s'.readWords k q := by
  simp only [State.readWords, State.readWord, same]

/-- What writing words leaves in the store depends on the store alone. -/
theorem writeWords_store_congr (same : s.store = s'.store) :
    (s.writeWords k ws).store = (s'.writeWords k ws).store := by
  induction ws generalizing s s' k with
  | nil => exact same
  | cons w ws ih => exact ih (k + 1) (congrArg (·.set k w) same)

/-- Words written again leave what their first writing left (R74). -/
theorem writeWords_idempotent (inside : k + ws.length ≤ s.n) (written : s'.store = (s.writeWords k ws).store) :
    (s'.writeWords k ws).store = s'.store := by
  have size : s'.n = s.n := by rw [n_eq, written, ← n_eq, writeWords_n]
  have word (j : Nat) : (s'.writeWords k ws).readWord j = s'.readWord j := by
    rw [readWord_writeWords s' k ws (by omega)]
    split
    · rename_i range
      rw [State.readWord, written, ← State.readWord, readWord_writeWords s k ws inside, if_pos range]
    · rfl
  refine List.ext_getElem (writeWords_n s' k ws) fun j h h' => ?_
  simpa [State.readWord, h, h'] using word j

variable (s)

theorem emit_writeWords_eq (bytes : List Byte) :
    (s.writeWords k ws).emit bytes = State.answered { s with store := (s.writeWords k ws).store } bytes := by
  rw [← (writeWords_eq s k ws).1, emit_eq_answered]

theorem endHost_writeWords_eq (r : HostResult) :
    (s.writeWords k ws).endHost r = State.returned { s with store := (s.writeWords k ws).store } r := by
  rw [← (writeWords_eq s k ws).1, endHost_eq_returned]

end

/-! ### What a protocol instruction's answer depends on -/

/-- `i` answers with the words `ws` written and a response of function byte `fc` and payload `pl`, in every state with
the store of `s₀` and whatever its opaque bytes are. -/
structure Replies (i : Instr) (s₀ : State) (ws : List Word) (fc : Byte) (pl : List Byte) : Prop where
  answer : ∀ h, Answer i s₀ h ws fc pl
  words : ws = [] ∨ ws = i.words
  code : fc = i.functionCode ∨ fc = i.functionCode ||| 0x80
  runs : ∀ (h : Header) (s : State), s.store = s₀.store →
    exec (i.withHeader h) s = .next ((s.writeWords i.written.1 ws).emit (frameBytes s.params h fc pl))

theorem Replies.exec_eq {i : Instr} {s₀ : State} {ws : List Word} {fc : Byte} {pl : List Byte}
    (r : Replies i s₀ ws fc pl) {h : Header} (hi : i.header? = some h) {s : State} (same : s.store = s₀.store) :
    exec i s = .next ((s.writeWords i.written.1 ws).emit (frameBytes s.params h fc pl)) := by
  rw [← r.runs h s same, Instr.withHeader_self hi]

/-- The three outcomes of a read (R222), under either function code. -/
theorem readRegisters_uniform (a q : Word) (s₀ : State) :
    (∃ code, (code = 2 ∨ code = 3) ∧ ∀ h fc (s : State), s.store = s₀.store →
        readRegisters h fc a q s = .next (s.emit (frameBytes s.params h (fc ||| 0x80) [code]))) ∨
      ∃ data, (1 ≤ q.toNat ∧ q.toNat ≤ s₀.n) ∧ data.length = 2 * q.toNat ∧
        ∀ h fc (s : State), s.store = s₀.store → readRegisters h fc a q s =
          .next (s.emit (frameBytes s.params h fc (BitVec.ofNat 8 (2 * q.toNat) :: data))) := by
  by_cases zero : q.toNat = 0
  · refine .inl ⟨3, .inr rfl, fun h fc s _ => ?_⟩
    rw [readRegisters_of_quantity_zero s h fc zero, emit_exception]
  have pos : 1 ≤ q.toNat := Nat.one_le_iff_ne_zero.mpr zero
  by_cases valid : validRange s₀.n a q.toNat
  · have inside := ((validRange_iff _ _ _).mp valid).2
    refine .inr ⟨wordsToBytes (s₀.readWords (slot a) q.toNat), ⟨pos, by omega⟩, by simp [wordsToBytes_length],
      fun h fc s same => ?_⟩
    rw [← readWords_congr _ same]
    exact (if_neg (quantity_ne_zero pos)).trans (if_pos (by rwa [n_eq, same]))
  · refine .inl ⟨2, .inl rfl, fun h fc s same => ?_⟩
    rw [readRegisters_of_not_valid s h fc pos (by rwa [n_eq, same]), emit_exception]

theorem exec_read_replies (i : Instr) (fc : Byte) (hfc : fc = 0x03 ∨ fc = 0x04) (code : i.functionCode = fc)
    (a q : Word) (runs : ∀ h s, exec (i.withHeader h) s = readRegisters h fc a q s) (s₀ : State) :
    ∃ ws fc pl, Replies i s₀ ws fc pl := by
  rcases readRegisters_uniform a q s₀ with ⟨e, he, raises⟩ | ⟨data, hq, len, reads⟩
  · exact ⟨[], _, _, fun _ => .raised fc e (.inr he), .inl rfl, .inr (by rw [code]),
      fun h s same => (runs h s).trans (raises h fc s same)⟩
  · exact ⟨[], _, _, fun _ => .read fc _ data hfc hq len, .inl rfl, .inl code.symm,
      fun h s same => (runs h s).trans (reads h fc s same)⟩

/-- Every protocol instruction answers, in every state, with a reply that its operands and the store fix. -/
theorem exec_protocol_replies (i : Instr) {hdr : Header} (hi : i.header? = some hdr) (s₀ : State) :
    ∃ ws fc pl, Replies i s₀ ws fc pl := by
  cases i with
  | readHoldingRegisters _ a q => exact exec_read_replies _ 0x03 (.inl rfl) rfl a q (fun _ _ => rfl) s₀
  | readHoldingRegisters04 _ a q => exact exec_read_replies _ 0x04 (.inr rfl) rfl a q (fun _ _ => rfl) s₀
  | writeSingleRegister _ a v =>
    by_cases valid : valid16 s₀.n a
    · have inside := ((valid16_iff _ _).mp valid).2
      refine ⟨[v], 0x06, _, fun _ => .wrote _ _ a v (.inl rfl) rfl inside, .inr rfl, .inl rfl, fun h s same => ?_⟩
      exact if_pos (by rwa [n_eq, same])
    · refine ⟨[], _, [2], fun _ => .raised 0x06 2 (by simp), .inl rfl, .inr rfl, fun h s same => ?_⟩
      exact if_neg (by rwa [n_eq, same])
  | writeMultipleRegisters _ a q bc data =>
    by_cases mismatch : q.toNat = 0 ∨ bc.toNat ≠ 2 * q.toNat
    · refine ⟨[], _, [3], fun _ => .raised 0x10 3 (by simp), .inl rfl, .inr rfl, fun h s _ => ?_⟩
      exact (exec_writeMultipleRegisters_of_mismatch s h data mismatch).trans (by rw [← emit_exception]; rfl)
    obtain ⟨pos, count⟩ : 1 ≤ q.toNat ∧ bc.toNat = 2 * q.toNat := by omega
    by_cases valid : validRange s₀.n a q.toNat
    · have inside := ((validRange_iff _ _ _).mp valid).2
      refine ⟨dataWords data q.toNat, 0x10, _, fun _ => .wrote _ _ a q (.inr rfl) (dataWords_length data _)
        (by rwa [dataWords_length]), .inr rfl, .inl rfl, fun h s same => ?_⟩
      rw [← twoWordFrame_eq]
      exact exec_writeMultipleRegisters_of_valid s h data pos count (by rwa [n_eq, same])
    · refine ⟨[], _, [2], fun _ => .raised 0x10 2 (by simp), .inl rfl, .inr rfl, fun h s same => ?_⟩
      exact (exec_writeMultipleRegisters_of_not_valid s h data pos count (by rwa [n_eq, same])).trans
        (by rw [← emit_exception]; rfl)
  | illegalFunction _ fc payload =>
    exact ⟨[], _, [1], fun _ => .raised fc 1 (by simp), .inl rfl, .inr rfl, fun _ _ _ => rfl⟩
  | getU16 a => cases hi
  | setU16 a w => cases hi
  | getU32 a => cases hi
  | setU32 a w => cases hi
  | getFloat a => cases hi
  | setFloat a w => cases hi
  | hostReserved r a w => cases hi

/-! ### What a host operation's answer depends on -/

/-- The words a host operation writes and the result it returns (R140 to R146). -/
inductive HostAnswer (s : State) : Instr → List Word → HostResult → Prop
  | failed (i : Instr) : HostAnswer s i [] (.err .addressOutOfRange)
  | gotU16 (a : Word) : HostAnswer s (.getU16 a) [] (.ok16 (s.readWord (slot a)))
  | gotU32 (a : Word) : HostAnswer s (.getU32 a) [] (.ok32 (s.readDouble (slot a)))
  | gotFloat (a : Word) : HostAnswer s (.getFloat a) [] (.ok32 (s.readDouble (slot a)))
  | didSetU16 (a : Word) (w : DWord) (inside : slot a + 1 ≤ s.n) :
      HostAnswer s (.setU16 a w) [lowWord w] .ok
  | didSetU32 (a : Word) (w : DWord) (inside : slot a + 2 ≤ s.n) :
      HostAnswer s (.setU32 a w) [lowWord w, highWord w] .ok
  | didSetFloat (a : Word) (w : DWord) (inside : slot a + 2 ≤ s.n) :
      HostAnswer s (.setFloat a w) [lowWord w, highWord w] .ok

/-- The words are none, or all that the operation names, and then inside the store. -/
theorem HostAnswer.words {s : State} {i : Instr} {ws : List Word} {r : HostResult} (h : HostAnswer s i ws r) :
    ws = [] ∨ ws = i.words ∧ i.written.1 + i.written.2 ≤ s.n := by
  cases h with
  | failed i => exact .inl rfl
  | gotU16 a => exact .inl rfl
  | gotU32 a => exact .inl rfl
  | gotFloat a => exact .inl rfl
  | didSetU16 a w inside => exact .inr ⟨rfl, inside⟩
  | didSetU32 a w inside => exact .inr ⟨rfl, inside⟩
  | didSetFloat a w inside => exact .inr ⟨rfl, inside⟩

/-- `i` writes the words `ws` and returns `r` in every state with the store of `s₀`. -/
structure HostReplies (i : Instr) (s₀ : State) (ws : List Word) (r : HostResult) : Prop where
  answer : HostAnswer s₀ i ws r
  exec_eq : ∀ s : State, s.store = s₀.store → exec i s = .next ((s.writeWords i.written.1 ws).endHost r)

theorem exec_get32_replies (i : Instr) (a : Word) (runs : ∀ s, exec i s = exec (.getU32 a) s) (s₀ : State)
    (got : HostAnswer s₀ i [] (.ok32 (s₀.readDouble (slot a)))) : ∃ ws r, HostReplies i s₀ ws r := by
  by_cases valid : valid32 s₀.n a
  · refine ⟨[], _, got, fun s same => ?_⟩
    rw [← readDouble_congr same, runs, exec_getU32_of_valid s (by rwa [n_eq, same])]
    rfl
  · refine ⟨[], _, .failed i, fun s same => ?_⟩
    rw [runs, exec_getU32_of_not_valid s (by rwa [n_eq, same])]
    rfl

theorem exec_set32_replies (i : Instr) (a : Word) (w : DWord) (runs : ∀ s, exec i s = exec (.setU32 a w) s)
    (at_slot : i.written.1 = slot a) (s₀ : State)
    (did : slot a + 2 ≤ s₀.n → HostAnswer s₀ i [lowWord w, highWord w] .ok) : ∃ ws r, HostReplies i s₀ ws r := by
  by_cases valid : valid32 s₀.n a
  · have inside := ((valid32_iff _ _).mp valid).2
    refine ⟨_, _, did inside, fun s same => ?_⟩
    rw [runs, exec_setU32_of_valid s w (by rwa [n_eq, same]), writeDouble_eq_writeWords, at_slot]
    rfl
  · refine ⟨[], _, .failed i, fun s same => ?_⟩
    rw [runs, exec_setU32_of_not_valid s w (by rwa [n_eq, same])]
    rfl

/-- Every host operation but the reserved ones answers, in every state, with what its operands and the store fix. -/
theorem exec_host_replies (i : Instr) (hi : i.header? = none) (named : ∀ r a w, i ≠ .hostReserved r a w)
    (s₀ : State) : ∃ ws r, HostReplies i s₀ ws r := by
  cases i with
  | readHoldingRegisters _ a q => cases hi
  | readHoldingRegisters04 _ a q => cases hi
  | writeSingleRegister _ a v => cases hi
  | writeMultipleRegisters _ a q bc data => cases hi
  | illegalFunction _ fc payload => cases hi
  | getU16 a =>
    by_cases valid : valid16 s₀.n a
    · refine ⟨[], _, .gotU16 a, fun s same => ?_⟩
      rw [← readWord_congr same]
      exact exec_getU16_of_valid s (by rwa [n_eq, same])
    · exact ⟨[], _, .failed _, fun s same => exec_getU16_of_not_valid s (by rwa [n_eq, same])⟩
  | setU16 a w =>
    by_cases valid : valid16 s₀.n a
    · exact ⟨_, _, .didSetU16 a w ((valid16_iff _ _).mp valid).2,
        fun s same => exec_setU16_of_valid s w (by rwa [n_eq, same])⟩
    · exact ⟨[], _, .failed _, fun s same => exec_setU16_of_not_valid s w (by rwa [n_eq, same])⟩
  | getU32 a => exact exec_get32_replies _ a (fun _ => rfl) s₀ (.gotU32 a)
  | setU32 a w => exact exec_set32_replies _ a w (fun _ => rfl) rfl s₀ (.didSetU32 a w)
  | getFloat a => exact exec_get32_replies _ a (fun s => exec_getFloat_eq_getU32 s a) s₀ (.gotFloat a)
  | setFloat a w => exact exec_set32_replies _ a w (fun s => exec_setFloat_eq_setU32 s a w) rfl s₀ (.didSetFloat a w)
  | hostReserved r a w => exact absurd rfl (named r a w)

/-! ### Both ports -/

/-- R148: what answers is not one of the reserved host operations. -/
theorem not_reserved_of_next {i : Instr} {s t : State} (next : exec i s = .next t) :
    ∀ r a w, i ≠ .hostReserved r a w := by
  rintro r a w rfl
  cases next

/-- In every state with the store of `s₀`, `i` answers, with the words `ws` written. -/
def Stores (i : Instr) (s₀ : State) (ws : List Word) : Prop :=
  ∀ s : State, s.store = s₀.store → ∃ t, exec i s = .next t ∧ t.store = (s.writeWords i.written.1 ws).store

/-- Every instruction but the reserved ones stores nothing, or all its words, inside the store (R31, R229). -/
theorem exec_stores (i : Instr) (named : ∀ r a w, i ≠ .hostReserved r a w) (s₀ : State) :
    Stores i s₀ [] ∨ i.written.1 + i.words.length ≤ s₀.n ∧ Stores i s₀ i.words := by
  cases hi : i.header? with
  | some hdr =>
    obtain ⟨ws, fc, pl, reply⟩ := exec_protocol_replies i hi s₀
    have stores : Stores i s₀ ws := fun s same => ⟨_, reply.exec_eq hi same, rfl⟩
    rcases (reply.answer hdr).words with rfl | ⟨-, inside⟩
    · exact .inl stores
    rcases reply.words with rfl | rfl
    · exact .inl stores
    · exact .inr ⟨inside, stores⟩
  | none =>
    obtain ⟨ws, r, reply⟩ := exec_host_replies i hi named s₀
    have stores : Stores i s₀ ws := fun s same => ⟨_, reply.exec_eq s same, rfl⟩
    rcases reply.answer.words with rfl | ⟨rfl, inside⟩
    · exact .inl stores
    · exact .inr ⟨by rwa [Instr.words_length], stores⟩

theorem Stores.store_eq {i : Instr} {s t : State} {ws : List Word} (stores : Stores i s ws)
    (next : exec i s = .next t) : t.store = (s.writeWords i.written.1 ws).store := by
  obtain ⟨t', next', store⟩ := stores s rfl
  cases next.symm.trans next'
  exact store

/-- R31: the words outside the range that an instruction names, and the store's length, stay. -/
theorem exec_store_frame {i : Instr} {s t : State} (next : exec i s = .next t) :
    t.store.length = s.store.length ∧ (i.written.2 = 0 → t.store = s.store) ∧
      ∀ j, (j < i.written.1 ∨ i.written.1 + i.written.2 ≤ j) → t.readWord j = s.readWord j := by
  rcases exec_stores i (not_reserved_of_next next) s with stores | ⟨inside, stores⟩
  · have same : t.store = s.store := stores.store_eq next
    exact ⟨congrArg _ same, fun _ => same, fun j _ => readWord_congr same j⟩
  · have written := stores.store_eq next
    obtain ⟨size, none_named, outside⟩ := writeWords_frame s i i.words (.inr ⟨i.words_length, inside⟩)
    exact ⟨written ▸ size, fun h => written.trans (none_named h),
      fun j out => (readWord_congr written j).trans (outside j out)⟩

/-! ### The obligations -/

/-- Settles O45, by the frame of the store. -/
theorem onlyTheNamedWordsAreWritten : Obligations.OnlyTheNamedWordsAreWritten := by
  intro i s t next
  obtain ⟨size, -, outside⟩ := exec_store_frame next
  exact ⟨size, outside⟩

/-- Settles O46: the reply of the instruction, and the frame of the store. -/
theorem protocolInstructionFrame : Obligations.ProtocolInstructionFrame := by
  intro i h s hi
  obtain ⟨ws, fc, pl, reply⟩ := exec_protocol_replies i hi s
  have next := reply.exec_eq hi rfl
  have frame := exec_store_frame next
  rw [emit_writeWords_eq] at next
  exact ⟨_, _, next, frame⟩

/-- Settles O47: the reply of the operation, and the frame of the store. -/
theorem hostOperationFrame : Obligations.HostOperationFrame := by
  intro i s hi named
  obtain ⟨ws, r, reply⟩ := exec_host_replies i hi named s
  have next := reply.exec_eq s rfl
  have frame := exec_store_frame next
  rw [endHost_writeWords_eq] at next
  exact ⟨_, _, next, frame⟩

/-- Settles O52: the reply is fixed by the operands and the store that the two states share. -/
theorem answerDependsOnStoreAlone : Obligations.AnswerDependsOnStoreAlone := by
  intro i s₁ s₂ t₁ params store next
  cases hi : i.header? with
  | some hdr =>
    obtain ⟨ws, fc, pl, reply⟩ := exec_protocol_replies i hi s₁
    cases (reply.exec_eq hi rfl).symm.trans next
    refine ⟨_, [.response (frameBytes s₁.params hdr fc pl)], [], reply.exec_eq hi store.symm, ?_, ?_, ?_, ?_, ?_⟩
    · exact writeWords_store_congr _ ws store.symm
    · simp
    · simp [params]
    · simp
    · simp
  | none =>
    obtain ⟨ws, r, reply⟩ := exec_host_replies i hi (not_reserved_of_next next) s₁
    cases (reply.exec_eq s₁ rfl).symm.trans next
    refine ⟨_, [], [r], reply.exec_eq s₂ store.symm, ?_, ?_, ?_, ?_, ?_⟩
    · exact writeWords_store_congr _ ws store.symm
    · simp
    · simp
    · simp
    · simp

/-- Settles O44: where the first run stored nothing, the second finds the same store; where it stored the
instruction's words, the second stores them again or nothing. -/
theorem readsLeaveTheStoreAndWritesAreIdempotent : Obligations.ReadsLeaveTheStoreAndWritesAreIdempotent := by
  intro i s t next
  obtain ⟨-, reads, -⟩ := exec_store_frame next
  have named := not_reserved_of_next next
  refine ⟨reads, ?_⟩
  rcases exec_stores i named s with first | ⟨inside, first⟩
  · exact first t (first.store_eq next)
  · have written := first.store_eq next
    rcases exec_stores i named t with second | ⟨-, second⟩
    · exact second t rfl
    · obtain ⟨u, next', store⟩ := second t rfl
      exact ⟨u, next', store.trans (writeWords_idempotent _ _ inside written)⟩

/-- A protocol instruction's one new response is the frame of its reply. -/
theorem Replies.response_eq {i : Instr} {s t : State} {ws : List Word} {fc : Byte} {pl bytes : List Byte}
    (reply : Replies i s ws fc pl) {h : Header} (hi : i.header? = some h) (next : exec i s = .next t)
    (hout : t.outcomes = s.outcomes ++ [.response bytes]) : bytes = frameBytes s.params h fc pl := by
  cases (reply.exec_eq hi rfl).symm.trans next
  rw [emit_outcomes, writeWords_outcomes] at hout
  cases List.append_cancel_left hout
  rfl

/-- R95, R222: an answer's payload is short enough for its length field: at most a byte count and the whole store. -/
theorem Answer.payload_length_le {i : Instr} {s : State} {h : Header} {ws : List Word} {fc : Byte} {pl : List Byte}
    (ans : Answer i s h ws fc pl) : pl.length ≤ max 4 (1 + 2 * s.n) := by
  cases ans with
  | read fc q data hfc hq hlen => rw [List.length_cons]; omega
  | wrote ws fc x y hfc hlen hfit => exact le_max_left _ _
  | raised fc code hcode => exact le_max_of_le_left (by simp)

/-- Settles O48: of the three kinds of answer only a raised exception has bit 7 of its function byte set. -/
theorem exceptionMeansNothingWritten : Obligations.ExceptionMeansNothingWritten := by
  intro i h s t bytes hi next hout bit7
  obtain ⟨ws, fc, pl, reply⟩ := exec_protocol_replies i hi s
  obtain rfl := reply.response_eq hi next hout
  rw [frameBytes_getD_seven] at bit7 ⊢
  cases reply.answer h with
  | read fc q data hfc hq hlen => rcases hfc with rfl | rfl <;> exact absurd bit7 (by decide)
  | wrote ws fc x y hfc hlen hfit => rcases hfc with rfl | rfl <;> exact absurd bit7 (by decide)
  | raised fc code hcode =>
    cases (reply.exec_eq hi rfl).symm.trans next
    exact ⟨rfl, code, hcode, frameBytes_small _ _ _ _ (by simp)⟩

/-- Settles O51: a response is a frame the frame builder builds, and its length field fits. -/
theorem emittedResponsesDecode : Obligations.EmittedResponsesDecode := by
  intro i h s t bytes build hi next hout fits
  obtain ⟨⟨-, size⟩, -⟩ := build
  obtain ⟨ws, fc, pl, reply⟩ := exec_protocol_replies i hi s
  obtain rfl := reply.response_eq hi next hout
  have short := (reply.answer h).payload_length_le
  rw [frameBytes_length] at fits
  rw [frameBytes_getD_seven]
  exact ⟨pl, decodeADU_frameBytes _ _ h fc pl rfl fits (Laws.Accepted.lenOf_small _ _ (by omega))⟩

/-- Settles O53: the reply is the same under either header, and the frame builder puts the header at bytes 0, 1, 6. -/
theorem headerIsOpaqueAndEchoed : Obligations.HeaderIsOpaqueAndEchoed := by
  intro i h h' s hi
  obtain ⟨ws, fc, pl, reply⟩ := exec_protocol_replies i hi s
  have next := reply.exec_eq hi rfl
  have next' := reply.runs h' s rfl
  rw [emit_writeWords_eq] at next next'
  exact ⟨_, _, _, next, next', rfl, rfl, rfl, rfl⟩

/-- Settles O28: the two codes share the read's outcome, and a frame's function code stands at byte 7 alone. -/
theorem functionCodesThreeAndFourAgree : Obligations.FunctionCodesThreeAndFourAgree := by
  intro h a q s
  have agree (fc fc' : Byte) (pl : List Byte) (k : Nat) (hk : k ≠ 7) :
      (frameBytes s.params h fc pl).getD k 0 = (frameBytes s.params h fc' pl).getD k 0 := by
    have only_seven : frameBytes s.params h fc pl = (frameBytes s.params h fc' pl).set 7 fc := rfl
    simp [only_seven, List.getElem?_set_ne hk.symm]
  rcases readRegisters_uniform a q s with ⟨e, -, raises⟩ | ⟨data, -, -, reads⟩
  · exact ⟨_, _, raises h 0x03 s rfl, raises h 0x04 s rfl, rfl, agree _ _ _, .inr ⟨rfl, rfl⟩⟩
  · exact ⟨_, _, reads h 0x03 s rfl, reads h 0x04 s rfl, rfl, agree _ _ _, .inl ⟨rfl, rfl⟩⟩

/-- Settles O49: each of these fails the value check, which is made first. -/
theorem valueIsCheckedBeforeAddress : Obligations.ValueIsCheckedBeforeAddress := by
  intro h a q bc data s _
  refine ⟨fun zero => ⟨?_, ?_⟩, fun mismatch => ?_⟩
  · exact readRegisters_of_quantity_zero s h 0x03 zero
  · exact readRegisters_of_quantity_zero s h 0x04 zero
  · exact exec_writeMultipleRegisters_of_mismatch s h data mismatch

/-- Settles O39, by the answers of the operations. -/
theorem hostWiresCarryTheResult : Obligations.HostWiresCarryTheResult := by
  intro i s t r hi next hres
  obtain ⟨ws, r', reply⟩ := exec_host_replies i hi (not_reserved_of_next next) s
  cases (reply.exec_eq s rfl).symm.trans next
  obtain rfl : r' = r := by
    rw [endHost_results, writeWords_results] at hres
    simpa using hres
  cases reply.answer with
  | failed i => exact ⟨by simp [HostResult.errBit], fun _ => ⟨rfl, rfl⟩, by simp [HostResult.errBit]⟩
  | gotU16 a => simp [HostResult.errBit, HostResult.rdata, State.readWord, slot_eq]
  | gotU32 a => simp [HostResult.errBit, HostResult.rdata, State.readDouble, join32_eq_ofNat, State.readWord, slot_eq]
  | gotFloat a => simp [HostResult.errBit, HostResult.rdata, State.readDouble, join32_eq_ofNat, State.readWord, slot_eq]
  | didSetU16 a w inside => simp [HostResult.errBit, HostResult.rdata]
  | didSetU32 a w inside => simp [HostResult.errBit, HostResult.rdata]
  | didSetFloat a w inside => simp [HostResult.errBit, HostResult.rdata]

end Machine

end Sys2Proof
end

section
/-!
PROOFS. A 32-bit value across the two ports (20_memory.md, R69, R103, R150) and the torn write (70_reset_and_hazards.md,
R325): a host value read on the wire, a value written on the wire and got by the host, and a get between two writes.
-/

namespace Sys2Proof

open Machine

/-! ### The bytes of a 32-bit value -/

theorem hi8_lowWord (v : DWord) : hi8 (lowWord v) = v.extractLsb' 8 8 := by
  apply BitVec.eq_of_toNat_eq
  rw [hi8_toNat, lowWord_toNat, BitVec.extractLsb'_toNat, Nat.shiftRight_eq_div_pow]
  omega

theorem lo8_lowWord (v : DWord) : lo8 (lowWord v) = v.extractLsb' 0 8 := by
  apply BitVec.eq_of_toNat_eq
  rw [lo8_toNat, lowWord_toNat, BitVec.extractLsb'_toNat, Nat.shiftRight_zero]
  omega

theorem hi8_highWord (v : DWord) : hi8 (highWord v) = v.extractLsb' 24 8 := by
  apply BitVec.eq_of_toNat_eq
  rw [hi8_toNat, highWord_toNat, BitVec.extractLsb'_toNat, Nat.shiftRight_eq_div_pow]
  omega

theorem lo8_highWord (v : DWord) : lo8 (highWord v) = v.extractLsb' 16 8 := by
  apply BitVec.eq_of_toNat_eq
  rw [lo8_toNat, highWord_toNat, BitVec.extractLsb'_toNat, Nat.shiftRight_eq_div_pow]

/-- R103: the data bytes of WRF32 are read as the two halves, low word first. -/
theorem dataWords_wordsToBytes_pair (lo hi : Word) : dataWords (wordsToBytes [lo, hi]) 2 = [lo, hi] := by
  simp [dataWords, List.range_succ, dataWord]

namespace Machine

section
variable (s : State) {a : Word}

@[simp] theorem answered_n (bytes : List Byte) : (s.answered bytes).n = s.n := rfl

@[simp] theorem answered_readDouble (bytes : List Byte) (i : Nat) :
    (s.answered bytes).readDouble i = s.readDouble i := rfl

@[simp] theorem answered_readWord (bytes : List Byte) (i : Nat) : (s.answered bytes).readWord i = s.readWord i := rfl

/-! ### Two words on the wire -/

/-- The response to a read of quantity 2, its bytes written out; it is short enough for every build. -/
theorem readRegisters_two_of_valid (h : Header) (fc : Byte) (valid : valid32 s.n a) :
    readRegisters h fc a 2 s = .next (s.answered
      [h.tid0, h.tid1, 0, 0, 0, BitVec.ofNat 8 (lenOf s.params 5), h.uid, fc, 4,
        hi8 (s.readWord (slot a)), lo8 (s.readWord (slot a)),
        hi8 (s.readWord (slot a + 1)), lo8 (s.readWord (slot a + 1))]) := by
  have range : validRange s.n a (2 : Word).toNat := by
    obtain ⟨mapped, inside⟩ := (valid32_iff _ _).mp valid
    exact (validRange_iff _ _ _).mpr ⟨mapped, inside⟩
  rw [readRegisters, if_neg (by decide), if_pos range, emit_eq_answered,
    frameBytes_small _ _ _ _ (by simp [wordsToBytes_length])]
  rfl

theorem exec_getU32_after_answered_writeDouble (w : DWord) (bytes : List Byte) (valid : valid32 s.n a) :
    exec (.getU32 a) ((s.writeDouble (slot a) w).answered bytes) =
      .next (((s.writeDouble (slot a) w).answered bytes).returned (.ok32 w)) := by
  obtain ⟨-, inside⟩ := (valid32_iff _ _).mp valid
  rw [exec_getU32_of_valid _ (by simpa using valid), answered_readDouble, readDouble_writeDouble_same s _ w inside]

/-- WRF32 stores the value as setU32 does, and echoes its address and quantity. -/
theorem exec_wrf32_of_valid (tid : Word) (uid : Byte) (x : DWord) (valid : valid32 s.n a) :
    exec (wrf32 tid uid a x) s =
      .next ((s.writeDouble (slot a) x).answered (twoWordFrame s.params (header tid uid) 0x10 a 2)) := by
  have range : validRange s.n a (2 : Word).toNat := by
    obtain ⟨mapped, inside⟩ := (valid32_iff _ _).mp valid
    exact (validRange_iff _ _ _).mpr ⟨mapped, inside⟩
  rw [writeDouble_eq_writeWords, ← dataWords_wordsToBytes_pair]
  exact exec_writeMultipleRegisters_of_valid s (header tid uid) _ (by decide) (by rfl) range

end

/-! ### The obligations -/

/-- Settles O41: the read finds the two halves that the set stored, and each is sent high byte first. -/
theorem publishedValueOnTheWire : Obligations.PublishedValueOnTheWire := by
  intro h a v s _ valid i set
  have next : exec i s = .next ((s.writeDouble (slot a) v).returned .ok) := by
    rcases set with rfl | rfl
    · exact exec_setU32_of_valid s v valid
    · rw [exec_setFloat_eq_setU32, exec_setU32_of_valid s v valid]
  obtain ⟨-, inside⟩ := (valid32_iff _ _).mp valid
  refine ⟨_, next, ?_⟩
  rw [exec, execReadHoldingRegisters, readRegisters_two_of_valid _ h 0x03 (by simpa using valid), returned_readWord,
    returned_readWord, readWord_writeDouble_low s _ v (by omega), readWord_writeDouble_high s _ v inside,
    hi8_lowWord, lo8_lowWord, hi8_highWord, lo8_highWord]
  rfl

/-- Settles O42: WRF32 stores the two halves, the gets join them, and RDF32 sends them. -/
theorem pseudoOperationsMoveThirtyTwoBits : Obligations.PseudoOperationsMoveThirtyTwoBits := by
  intro tid uid a x s _ valid
  obtain ⟨-, inside⟩ := (valid32_iff _ _).mp valid
  have got := exec_getU32_after_answered_writeDouble s x (twoWordFrame s.params (header tid uid) 0x10 a 2) valid
  refine ⟨_, exec_wrf32_of_valid s tid uid x valid, got, got, lowWord x, highWord x, join32_halves x, ?_⟩
  rw [rdf32, rdhr, exec, execReadHoldingRegisters, readRegisters_two_of_valid _ _ 0x03 (by simpa using valid),
    answered_readWord, answered_readWord, readWord_writeDouble_low s _ x (by omega),
    readWord_writeDouble_high s _ x inside]
  rfl

/-- Settles O43: the first write leaves the high half as it was, the second the low half. -/
theorem tornWriteIsSeen : Obligations.TornWriteIsSeen := by
  intro h h' a a' x s _ valid next
  obtain ⟨mapped, inside⟩ := (valid32_iff _ _).mp valid
  have valid' := valid16_next_of_valid32 valid next
  refine ⟨_, _, _, exec_writeSingleRegister_of_valid s h (lowWord x) (valid16_of_valid32 valid),
    exec_getU32_of_valid _ (by simpa using valid), ?_,
    exec_writeSingleRegister_of_valid _ h' (highWord x) (by simpa using valid'), ?_⟩
  · have seen : (s.writeWord (slot a) (lowWord x)).readDouble (slot a) =
        join32 (lowWord x) (s.readWord (slot a + 1)) := by
      rw [State.readDouble, readWord_writeWord_same _ _ _ (by omega), readWord_writeWord_other _ _ _ _ (by omega)]
    rw [answered_readDouble, seen]
    rfl
  · have whole : ((s.writeWord (slot a) (lowWord x)).writeWord (slot a + 1) (highWord x)).readDouble (slot a) = x :=
      readDouble_writeDouble_same s (slot a) x inside
    rw [exec_getFloat_eq_getU32, exec_getU32_of_valid _ (by simpa using valid), answered_readDouble,
      slot_next mapped next]
    exact congrArg (fun v => Host.Outcome.next (State.returned _ (.ok32 v))) whole

end Machine

end Sys2Proof
end

section
/-!
PROOFS. The ports (10_state.md section 4, 20_memory.md section 5): which operation a step takes from which port, what
the whole transaction leaves (R38, R40, R231), and what a step of an idle core can do (R42, R73).
-/

namespace Sys2Proof.Machine

/-! ### Which operation is taken (R75, R76) -/

section
variable {s : State} {b : List Byte} {bs : List (List Byte)} {o : HostOp} {os : List HostOp}

theorem select_of_inFlight {x : Transaction} (busy : s.inFlight = some x) : s.select = some (x, s) := by
  rw [State.select, busy]

theorem select_lone_frame (idle : s.inFlight = none) (frames : s.frames = b :: bs) (alone : s.hostOps = []) :
    s.select = some (.frame b, { s.chargeLone .protocol with frames := bs }) := by
  rw [State.select, idle, frames, alone]

theorem select_lone_hostOp (idle : s.inFlight = none) (hostOps : s.hostOps = o :: os) (alone : s.frames = []) :
    s.select = some (.hostOp o, { s.chargeLone .host with hostOps := os }) := by
  rw [State.select, idle, hostOps, alone]

theorem select_contested_frame (idle : s.inFlight = none) (frames : s.frames = b :: bs) (contested : s.hostOps ≠ [])
    (favoured : s.favoured = .protocol) : s.select = some (.frame b, { s.chargeGrant with frames := bs }) := by
  obtain ⟨o, os, hostOps⟩ := List.exists_cons_of_ne_nil contested
  rw [State.select, idle, frames, hostOps, favoured]

theorem select_contested_hostOp (idle : s.inFlight = none) (hostOps : s.hostOps = o :: os)
    (contested : s.frames ≠ []) (favoured : s.favoured = .host) :
    s.select = some (.hostOp o, { s.chargeGrant with hostOps := os }) := by
  obtain ⟨b, bs, frames⟩ := List.exists_cons_of_ne_nil contested
  rw [State.select, idle, frames, hostOps, favoured]

theorem step_of_select {x : Transaction} {s' : State} (taken : s.select = some (x, s')) :
    step s = runTransaction x s' := by
  rw [step, taken]

theorem runTransaction_of_decode {x : Transaction} {i : Instr} (decoded : decode s.params x = .ok i) :
    runTransaction x s = exec i (s.accept x) := by
  rw [runTransaction, decoded]

theorem runFrame_of_decodeFrame {i : Instr} (decoded : decodeFrame s.params b = .ok i) :
    runTransaction (.frame b) s = exec i (s.accept (.frame b)) :=
  runTransaction_of_decode (x := .frame b) decoded

theorem runFrame_of_malformed {e : Malformed} (malformed : decodeFrame s.params b = .error e) :
    runTransaction (.frame b) s = .next s.drop := by
  rw [runTransaction, decode, malformed]

/-- Every host operation decodes (R101). -/
theorem runHostOp_eq_exec : runTransaction (.hostOp o) s = exec (decodeHostOp o) (s.accept (.hostOp o)) := rfl

/-- The oldest frame is taken when it is its turn; the arbiter charges a contested grant. -/
theorem select_frame (idle : s.inFlight = none) (frames : s.frames = b :: bs)
    (granted : s.hostOps ≠ [] → s.favoured = .protocol) :
    ∃ s₁, SameButArbiter s s₁ ∧ (s.hostOps ≠ [] → s₁ = s.chargeGrant) ∧
      s.select = some (.frame b, { s₁ with frames := bs }) := by
  by_cases alone : s.hostOps = []
  · exact ⟨_, chargeLone_eq s .protocol, fun h => absurd alone h, select_lone_frame idle frames alone⟩
  · exact ⟨_, chargeGrant_eq s, fun _ => rfl, select_contested_frame idle frames alone (granted alone)⟩

/-- The oldest host operation is taken when it is its turn; the arbiter charges a contested grant. -/
theorem select_hostOp (idle : s.inFlight = none) (hostOps : s.hostOps = o :: os)
    (granted : s.frames ≠ [] → s.favoured = .host) :
    ∃ s₁, SameButArbiter s s₁ ∧ (s.frames ≠ [] → s₁ = s.chargeGrant) ∧
      s.select = some (.hostOp o, { s₁ with hostOps := os }) := by
  by_cases alone : s.frames = []
  · exact ⟨_, chargeLone_eq s .host, fun h => absurd alone h, select_lone_hostOp idle hostOps alone⟩
  · exact ⟨_, chargeGrant_eq s, fun _ => rfl, select_contested_hostOp idle hostOps alone (granted alone)⟩

end

/-! ### A whole transaction -/

section
variable (s : State)

/-- The response to a frame that decodes is one of this frame (R95, R185). -/
theorem outcomeOf_response {p : Params} {b : List Byte} {i : Instr} {h : Header} {fc : Byte} (pl : List Byte)
    (decoded : decodeFrame p b = .ok i) (hi : i.header? = some h)
    (code : fc = i.functionCode ∨ fc = i.functionCode ||| 0x80) :
    OutcomeOf p b (.response (frameBytes p h fc pl)) := by
  obtain ⟨payload, encoded⟩ := encode_protocol p hi
  cases (encode_of_decodeFrame p b i decoded).symm.trans encoded
  rw [OutcomeOf, decoded]
  exact ⟨_, rfl, rfl, rfl, rfl, code⟩

/-- R231: a frame's transaction ends in one outcome of this frame, with the port idle and its buffers empty. -/
theorem runFrame_next (b : List Byte) :
    ∃ store' o, OutcomeOf s.params b o ∧ runTransaction (.frame b) s =
      .next { s with store := store', outcomes := s.outcomes ++ [o], inFlight := none, outbound := [] } := by
  cases decoded : decodeFrame s.params b with
  | error e =>
    exact ⟨s.store, .dropped, by rw [OutcomeOf, decoded], runFrame_of_malformed decoded⟩
  | ok i =>
    obtain ⟨fr, -, -, hi⟩ := header_of_decodeFrame _ _ _ decoded
    obtain ⟨ws, fc, pl, reply⟩ := exec_protocol_replies i hi (s.accept (.frame b))
    refine ⟨((s.accept (.frame b)).writeWords i.written.1 ws).store, _,
      outcomeOf_response pl decoded hi reply.code, ?_⟩
    rw [runFrame_of_decodeFrame decoded, reply.exec_eq hi rfl, emit_writeWords_eq]
    rfl

theorem opCode_cases (op : BitVec 3) : op < 6 ∨ op = 6 ∨ op = 7 := by
  revert op
  decide

/-- The result of a host operation that is not reserved is one of this operation (R40, R101). -/
theorem resultOf_answer {s : State} {o : HostOp} {ws : List Word} {r : HostResult} (named : o.op < 6)
    (ans : HostAnswer s (decodeHostOp o) ws r) : ResultOf o r := by
  refine ⟨named, ?_⟩
  obtain ⟨op, a, w⟩ := o
  obtain ⟨e0, e1, e2, e3, e4, e5, -, -⟩ := hostOpFieldSelectsOperation a w
  have codes : ∀ x : BitVec 3, x < 6 → x = 0 ∨ x = 1 ∨ x = 2 ∨ x = 3 ∨ x = 4 ∨ x = 5 := by decide
  rcases codes op named with rfl | rfl | rfl | rfl | rfl | rfl
  · rw [e0] at ans
    cases ans <;> simp
  · rw [e1] at ans
    cases ans <;> simp
  · rw [e2] at ans
    cases ans <;> simp
  · rw [e3] at ans
    cases ans <;> simp
  · rw [e4] at ans
    cases ans <;> simp
  · rw [e5] at ans
    cases ans <;> simp

/-- A host operation that is not reserved ends in one result of this operation, with the port idle. -/
theorem runHostOp_next {o : HostOp} (named : o.op < 6) :
    ∃ store' r, ResultOf o r ∧ runTransaction (.hostOp o) s =
      .next { s with store := store', results := s.results ++ [r], inFlight := none } := by
  have not_reserved : ∀ r a w, decodeHostOp o ≠ .hostReserved r a w := by
    intro r a w reserved
    obtain ⟨codes, -, -⟩ := decodeHostOp_reserved o ⟨r, a, w, reserved⟩
    rcases codes with h | h <;> rw [h] at named <;> exact absurd named (by decide)
  obtain ⟨ws, r, reply⟩ := exec_host_replies _ (header_of_decodeHostOp o) not_reserved (s.accept (.hostOp o))
  refine ⟨((s.accept (.hostOp o)).writeWords (decodeHostOp o).written.1 ws).store, r,
    resultOf_answer named reply.answer, ?_⟩
  rw [runHostOp_eq_exec, reply.exec_eq _ rfl, endHost_writeWords_eq]
  rfl

/-- R148: a reserved host operation is refused, and the refusal names its code. -/
theorem runHostOp_refused {o : HostOp} (reserved : o.op = 6 ∨ o.op = 7) :
    runTransaction (.hostOp o) s = .refused (.reservedHostOp o.op) := by
  obtain ⟨r, decoded, refused⟩ := reservedHostOpIsRefused o (s.accept (.hostOp o)) reserved
  rw [runHostOp_eq_exec, decoded, refused]

end

/-! ### A step of an idle core -/

/-- Port `p` has an operation pending. -/
def State.Pending (s : State) : Port → Prop
  | .protocol => s.frames ≠ []
  | .host => s.hostOps ≠ []

/-- Port `p` is the one served next: it has an operation pending, and the arbiter's favour if the other has too. -/
def State.Granted (s : State) (p : Port) : Prop := s.Pending p ∧ (s.Pending p.other → s.favoured = p)

/-- The oldest operation of port `p` has left its queue, and one answer to it is there. -/
def TookOldest (s t : State) : Port → Prop
  | .protocol => ∃ b o, s.frames = b :: t.frames ∧ t.outcomes = s.outcomes ++ [o] ∧ OutcomeOf s.params b o
  | .host => ∃ o r, s.hostOps = o :: t.hostOps ∧ t.results = s.results ++ [r] ∧ ResultOf o r

/-- Port `p` has its queue and its answers as before. -/
def Untouched (s t : State) : Port → Prop
  | .protocol => t.frames = s.frames ∧ t.outcomes = s.outcomes
  | .host => t.hostOps = s.hostOps ∧ t.results = s.results

/-- What a step that serves port `p` leaves. -/
structure Served (p : Port) (s t : State) : Prop where
  took : TookOldest s t p
  other : Untouched s t p.other
  inFlight : t.inFlight = none
  outbound : p = .protocol → t.outbound = []
  charged : s.Pending p.other → t.turn = s.chargeGrant.turn ∧ t.credit = s.chargeGrant.credit

@[simp] theorem other_other (p : Port) : p.other.other = p := by
  cases p <;> rfl

theorem eq_or_eq_other (p q : Port) : q = p ∨ q = p.other := by
  cases p <;> cases q <;> simp [Port.other]

section
variable {s t : State}

/-- A frame whose turn it is is served. -/
theorem step_frame (idle : s.inFlight = none) (granted : s.Granted .protocol) :
    ∃ t, step s = .next t ∧ Served .protocol s t := by
  obtain ⟨pending, favour⟩ := granted
  obtain ⟨b, bs, frames⟩ := List.exists_cons_of_ne_nil pending
  obtain ⟨s₁, same, charged, taken⟩ := select_frame idle frames favour
  obtain ⟨params, -, -, hostOps, -, -, outcomes, results, -⟩ := same.fields
  obtain ⟨store', o, outcome, run⟩ := runFrame_next { s₁ with frames := bs } b
  refine ⟨_, (step_of_select taken).trans run, ?_, ⟨hostOps, results⟩, rfl, fun _ => rfl, fun contested => ?_⟩
  · exact ⟨b, o, frames, by rw [← outcomes], params ▸ outcome⟩
  · rw [← charged contested]
    exact ⟨rfl, rfl⟩

/-- A host operation whose turn it is is served, or refused for its code (R148). -/
theorem step_hostOp (idle : s.inFlight = none) (granted : s.Granted .host) :
    (∃ t, step s = .next t ∧ Served .host s t) ∨
      ∃ o ∈ s.hostOps, (o.op = 6 ∨ o.op = 7) ∧ step s = .refused (.reservedHostOp o.op) := by
  obtain ⟨pending, favour⟩ := granted
  obtain ⟨o, os, hostOps⟩ := List.exists_cons_of_ne_nil pending
  obtain ⟨s₁, same, charged, taken⟩ := select_hostOp idle hostOps favour
  obtain ⟨-, -, frames, -, -, -, outcomes, results, -⟩ := same.fields
  rcases opCode_cases o.op with named | reserved
  · obtain ⟨store', r, result, run⟩ := runHostOp_next { s₁ with hostOps := os } named
    refine .inl ⟨_, (step_of_select taken).trans run, ?_, ⟨frames, outcomes⟩, rfl, nofun, fun contested => ?_⟩
    · exact ⟨o, r, hostOps, by rw [← results], result⟩
    · rw [← charged contested]
      exact ⟨rfl, rfl⟩
  · exact .inr ⟨o, by simp [hostOps], reserved, (step_of_select taken).trans (runHostOp_refused _ reserved)⟩

/-- While something is pending, one port is served next. -/
theorem exists_granted (idle : s.inFlight = none) (pending : ¬ s.Finished) : ∃ p, s.Granted p := by
  by_cases frames : s.frames = []
  · exact ⟨.host, fun hostOps => pending ⟨idle, frames, hostOps⟩, fun h => absurd frames h⟩
  by_cases hostOps : s.hostOps = []
  · exact ⟨.protocol, frames, fun h => absurd hostOps h⟩
  · refine ⟨s.favoured, ?_, fun _ => rfl⟩
    cases s.favoured with
    | protocol => exact frames
    | host => exact hostOps

theorem step_finished (finished : s.Finished) : step s = .next s := by
  obtain ⟨idle, nothing⟩ := finished
  rw [step, (select_eq_none s idle).mpr nothing]

/-- Everything a step of an idle core that answers a next state can do: wait, or serve one port. -/
theorem step_served (idle : s.inFlight = none) (next : step s = .next t) :
    t = s ∧ s.Finished ∨ ∃ p, Served p s t := by
  by_cases finished : s.Finished
  · cases (step_finished finished).symm.trans next
    exact .inl ⟨rfl, finished⟩
  obtain ⟨p, granted⟩ := exists_granted idle finished
  refine .inr ⟨p, ?_⟩
  cases p with
  | protocol =>
    obtain ⟨t', next', served⟩ := step_frame idle granted
    cases next.symm.trans next'
    exact served
  | host =>
    rcases step_hostOp idle granted with ⟨t', next', served⟩ | ⟨o, -, -, refused⟩
    · cases next.symm.trans next'
      exact served
    · cases next.symm.trans refused

end

/-! ### The obligations -/

/-- Settles O10, by induction on the inputs. -/
theorem inputsJoinTheQueuesInOrder : Obligations.InputsJoinTheQueuesInOrder := by
  intro s ts
  induction ts generalizing s with
  | nil => simp [State.offerAll]
  | cons x xs ih =>
    rw [State.offerAll, List.foldl_cons, ← State.offerAll, ih]
    cases x with
    | frame b => simp [State.offer, State.deliver, Transaction.frame?, List.filterMap_cons, Transaction.hostOp?]
    | hostOp o => simp [State.offer, State.issue, Transaction.frame?, List.filterMap_cons, Transaction.hostOp?]

/-- Settles O11: nothing is taken when nothing is pending. -/
theorem idleCoreWaits : Obligations.IdleCoreWaits := fun _ => step_finished

/-- Settles O12, by what a step of an idle core can do. -/
theorem stepAnswersExactlyOneOperation : Obligations.StepAnswersExactlyOneOperation := by
  intro s t idle next pending
  rcases step_served idle next with ⟨-, finished⟩ | ⟨p, served⟩
  · exact absurd finished pending
  refine ⟨served.inFlight, ?_⟩
  cases p with
  | protocol =>
    obtain ⟨b, o, frames, outcomes, -⟩ := served.took
    obtain ⟨hostOps, results⟩ := served.other
    exact .inl ⟨b, o, frames, outcomes, hostOps, results⟩
  | host =>
    obtain ⟨op, r, hostOps, results, -⟩ := served.took
    obtain ⟨frames, outcomes⟩ := served.other
    exact .inr ⟨op, r, hostOps, results, frames, outcomes⟩

/-- Settles O13, by the step that serves the frame. -/
theorem everyFrameGetsAnOutcome : Obligations.EveryFrameGetsAnOutcome := by
  intro s b bs idle frames turn
  have granted : s.Granted .protocol := ⟨by simp [State.Pending, frames], turn.resolve_left⟩
  obtain ⟨t, next, served⟩ := step_frame idle granted
  obtain ⟨b', o, frames', outcomes, -⟩ := served.took
  cases frames.symm.trans frames'
  exact ⟨t, o, next, rfl, outcomes, served.inFlight, served.outbound rfl⟩

/-- A transaction that does not answer a next state is a reserved host operation, refused. -/
theorem runTransaction_stops (x : Transaction) (s : State) :
    (∃ t, runTransaction x s = .next t) ∨
      ∃ o, x = .hostOp o ∧ (o.op = 6 ∨ o.op = 7) ∧ runTransaction x s = .refused (.reservedHostOp o.op) := by
  cases x with
  | frame b =>
    obtain ⟨_, _, -, next⟩ := runFrame_next s b
    exact .inl ⟨_, next⟩
  | hostOp o =>
    rcases opCode_cases o.op with named | reserved
    · obtain ⟨_, _, -, next⟩ := runHostOp_next s named
      exact .inl ⟨_, next⟩
    · exact .inr ⟨o, rfl, reserved, runHostOp_refused s reserved⟩

/-- Where an operation that a step takes stood: in flight, or at the head of its idle port's queue. -/
theorem select_hostOp_origin {s s' : State} {o : HostOp} (taken : s.select = some (.hostOp o, s')) :
    s.inFlight = some (.hostOp o) ∨ s.inFlight = none ∧ ∃ os, s.hostOps = o :: os := by
  cases busy : s.inFlight with
  | some x =>
    cases (select_of_inFlight busy).symm.trans taken
    exact .inl rfl
  | none =>
    obtain ⟨s₁, -, ⟨b, bs, -, frame, -⟩ | ⟨o', os, hostOps, same, -⟩⟩ := select_cases s _ _ busy taken
    · cases frame
    · cases same
      exact .inr ⟨rfl, os, hostOps⟩

/-- Settles O14: a step waits, or runs one transaction, and only a reserved host operation stops that. -/
theorem onlyReservedHostOpsStop : Obligations.OnlyReservedHostOpsStop := by
  intro s
  cases taken : s.select with
  | none =>
    rw [step, taken]
    exact ⟨nofun, nofun⟩
  | some xs =>
    obtain ⟨x, s'⟩ := xs
    rw [step_of_select taken]
    rcases runTransaction_stops x s' with ⟨t, next⟩ | ⟨o, rfl, reserved, refused⟩
    · rw [next]
      exact ⟨nofun, nofun⟩
    · rw [refused]
      refine ⟨nofun, ?_⟩
      rintro r ⟨⟩
      exact ⟨o, rfl, reserved, select_hostOp_origin taken⟩

/-- Settles O7, by the two ways a frame is taken. -/
theorem stepRunsDecodedFrame : Obligations.StepRunsDecodedFrame := by
  intro s b bs i idle frames decoded
  refine ⟨fun alone => ?_, fun contested favoured => ?_⟩
  · rw [step_of_select (select_lone_frame idle frames alone)]
    exact runFrame_of_decodeFrame (by rw [chargeLone_params, decoded])
  · rw [step_of_select (select_contested_frame idle frames contested favoured)]
    exact runFrame_of_decodeFrame (by rw [chargeGrant_params, decoded])

/-- Settles O8, by the two ways a host operation is taken. -/
theorem stepRunsDecodedHostOp : Obligations.StepRunsDecodedHostOp := by
  intro s o os idle hostOps
  refine ⟨fun alone => ?_, fun contested favoured => ?_⟩
  · rw [step_of_select (select_lone_hostOp idle hostOps alone), runHostOp_eq_exec]
    rfl
  · rw [step_of_select (select_contested_hostOp idle hostOps contested favoured), runHostOp_eq_exec]
    rfl

/-- A malformed frame that `s₁` has taken from an idle core's queue is dropped, and nothing else happens. -/
theorem runTransaction_drops {s₁ : State} {b : List Byte} (bs : List (List Byte)) {e : Malformed}
    (idle : s₁.inFlight = none) (empty : s₁.outbound = []) (malformed : decodeFrame s₁.params b = .error e) :
    runTransaction (.frame b) { s₁ with frames := bs } =
      .next { s₁ with frames := bs, outcomes := s₁.outcomes ++ [.dropped] } := by
  have dropped := runFrame_of_malformed (s := { s₁ with frames := bs }) malformed
  rw [dropped, idle, empty]
  rfl

/-- Settles O9, by the two ways a frame is taken. -/
theorem malformedFrameIsDropped : Obligations.MalformedFrameIsDropped := by
  intro s b bs e idle empty frames malformed
  refine ⟨fun alone => ?_, fun contested favoured => ?_⟩
  · rw [step_of_select (select_lone_frame idle frames alone), runTransaction_drops bs (by simpa) (by simpa)
      (by rwa [chargeLone_params]), chargeLone_outcomes]
  · rw [step_of_select (select_contested_frame idle frames contested favoured), runTransaction_drops bs (by simpa)
      (by simpa) (by rwa [chargeGrant_params]), chargeGrant_outcomes]

/-- What `placeNext` places is taken by the very next step, whatever was in flight or pending (log 8). -/
theorem select_placeNext (s : State) (x : Transaction) :
    ∃ s', (s.placeNext x).select = some (x, s') ∧ s'.params = s.params ∧ s'.store = s.store ∧
      s'.outcomes = s.outcomes ∧ s'.results = s.results ∧ s'.frames = s.frames ∧ s'.hostOps = s.hostOps := by
  cases x with
  | frame b =>
    obtain ⟨s₁, same, -, taken⟩ := select_frame (s := s.placeNext (.frame b)) rfl rfl fun _ => rfl
    obtain ⟨params, store, -, hostOps, -, -, outcomes, results, -⟩ := same.fields
    exact ⟨_, taken, params, store, outcomes, results, rfl, hostOps⟩
  | hostOp o =>
    obtain ⟨s₁, same, -, taken⟩ := select_hostOp (s := s.placeNext (.hostOp o)) rfl rfl fun _ => rfl
    obtain ⟨params, store, frames, -, -, -, outcomes, results, -⟩ := same.fields
    exact ⟨_, taken, params, store, outcomes, results, frames, rfl⟩

/-- Settles O15: what is placed is taken, and it decodes under the same parameters. -/
theorem placedWordRunsNext : Obligations.PlacedWordRunsNext := by
  intro s nbits w i decoded
  obtain ⟨s', taken, params, rest⟩ := select_placeNext s (tableTransaction s.params nbits w)
  exact ⟨s'.accept _, (step_of_select taken).trans (runTransaction_of_decode (params ▸ decoded)), params, rest⟩

/-- Settles O16: a port with the turn and a credit of one is favoured, and the grant spends it. -/
theorem eitherPortMayBeServedNext : Obligations.EitherPortMayBeServedNext := by
  intro s b bs o os idle frames hostOps
  constructor
  · exact step_of_select (select_contested_frame idle frames (by simp [hostOps]) rfl)
  · exact step_of_select (select_contested_hostOp idle hostOps (by simp [frames]) rfl)

/-- Settles O54: decoding reads the parameters, which no step changes. -/
theorem storeNeverChangesDecoding : Obligations.StoreNeverChangesDecoding := by
  intro s t x next
  rw [(step_keeps_build s next).1]

end Sys2Proof.Machine
end

section
/-!
PROOFS. Runs (70_reset_and_hazards.md section 4): each port is served in the order of arrival (R75), a run ends (R331),
and no port waits longer than the arbiter's credit and one more burst (R76, log 3).
-/

namespace Sys2Proof.Machine

section
variable {s t u : State} {p : Port} {k : Nat}

/-! ### Steps of a run -/

theorem run_of_step (next : step s = .next t) : run (k + 1) s = run k t := by
  rw [run, next]

theorem run_one (next : step s = .next t) : run 1 s = .next t := run_of_step next

/-! ### A host that obeys R148 -/

/-- Serving a port issues nothing. -/
theorem Served.hostObeys (served : Served p s t) (obeys : s.HostObeys) : t.HostObeys := by
  cases p with
  | protocol =>
    obtain ⟨hostOps, -⟩ := served.other
    rwa [State.HostObeys, hostOps]
  | host =>
    obtain ⟨o, r, hostOps, -⟩ := served.took
    intro o' mem
    exact obeys o' (hostOps ▸ List.mem_cons_of_mem o mem)

/-- While the host obeys, the port whose turn it is is served. -/
theorem step_granted (idle : s.inFlight = none) (obeys : s.HostObeys) (granted : s.Granted p) :
    ∃ t, step s = .next t ∧ Served p s t := by
  cases p with
  | protocol => exact step_frame idle granted
  | host =>
    rcases step_hostOp idle granted with served | ⟨o, mem, reserved, -⟩
    · exact served
    · have named := obeys o mem
      rcases reserved with h | h <;> rw [h] at named <;> exact absurd named (by decide)

/-! ### The order of arrival -/

/-- The operations that have left port `p`'s queue are the oldest ones, each with one answer of its own, in order. -/
def ServedInOrder (s t : State) : Port → Prop
  | .protocol => ∃ bs os, s.frames = bs ++ t.frames ∧ t.outcomes = s.outcomes ++ os ∧
      List.Forall₂ (OutcomeOf s.params) bs os
  | .host => ∃ ops rs, s.hostOps = ops ++ t.hostOps ∧ t.results = s.results ++ rs ∧ List.Forall₂ ResultOf ops rs

theorem ServedInOrder.refl (s : State) (p : Port) : ServedInOrder s s p := by
  cases p with
  | protocol => exact ⟨[], [], rfl, (List.append_nil _).symm, .nil⟩
  | host => exact ⟨[], [], rfl, (List.append_nil _).symm, .nil⟩

theorem ServedInOrder.after_took (took : TookOldest s t p) (params : t.params = s.params)
    (rest : ServedInOrder t u p) : ServedInOrder s u p := by
  cases p with
  | protocol =>
    obtain ⟨b, o, frames, outcomes, outcome⟩ := took
    obtain ⟨bs, os, frames', outcomes', all⟩ := rest
    exact ⟨b :: bs, o :: os, by simp [frames, frames'], by simp [outcomes, outcomes'], .cons outcome (params ▸ all)⟩
  | host =>
    obtain ⟨o, r, hostOps, results, result⟩ := took
    obtain ⟨ops, rs, hostOps', results', all⟩ := rest
    exact ⟨o :: ops, r :: rs, by simp [hostOps, hostOps'], by simp [results, results'], .cons result all⟩

theorem ServedInOrder.after_untouched (same : Untouched s t p) (params : t.params = s.params)
    (rest : ServedInOrder t u p) : ServedInOrder s u p := by
  cases p with
  | protocol =>
    obtain ⟨frames, outcomes⟩ := same
    rwa [ServedInOrder, frames, outcomes, params] at rest
  | host =>
    obtain ⟨hostOps, results⟩ := same
    rwa [ServedInOrder, hostOps, results] at rest

theorem TookOldest.after_untouched (same : Untouched s t p) (params : t.params = s.params)
    (took : TookOldest t u p) : TookOldest s u p := by
  cases p with
  | protocol =>
    obtain ⟨frames, outcomes⟩ := same
    rwa [TookOldest, frames, outcomes, params] at took
  | host =>
    obtain ⟨hostOps, results⟩ := same
    rwa [TookOldest, hostOps, results] at took

/-- A run serves each port in the order of arrival, by induction on its steps. -/
theorem run_servedInOrder (k : Nat) {s t : State} (idle : s.inFlight = none) (runs : run k s = .next t) (p : Port) :
    ServedInOrder s t p := by
  induction k generalizing s with
  | zero =>
    cases runs
    exact .refl _ p
  | succ k ih =>
    cases next : step s with
    | next s' =>
      rw [run_of_step next] at runs
      rcases step_served idle next with ⟨rfl, -⟩ | ⟨q, served⟩
      · exact ih idle runs
      · have params := (step_keeps_build s next).1
        have rest := ih served.inFlight runs
        rcases eq_or_eq_other q p with rfl | rfl
        · exact .after_took served.took params rest
        · exact .after_untouched served.other params rest
    | fault f =>
      rw [run_succ, next] at runs
      cases runs
    | refused r =>
      rw [run_succ, next] at runs
      cases runs

/-! ### The end of a run -/

/-- How many operations are pending. -/
def State.pendingCount (s : State) : Nat := s.frames.length + s.hostOps.length

theorem Served.pendingCount (served : Served p s t) : s.pendingCount = t.pendingCount + 1 := by
  cases p with
  | protocol =>
    obtain ⟨b, o, frames, -⟩ := served.took
    obtain ⟨hostOps, -⟩ := served.other
    simp [State.pendingCount, frames, hostOps]; omega
  | host =>
    obtain ⟨o, r, hostOps, -⟩ := served.took
    obtain ⟨frames, -⟩ := served.other
    simp [State.pendingCount, frames, hostOps]; omega

/-- As many steps as operations are pending end the run. -/
theorem run_finishes (k : Nat) {s : State} (idle : s.inFlight = none) (obeys : s.HostObeys)
    (count : s.pendingCount = k) : ∃ t, run k s = .next t ∧ t.Finished := by
  induction k generalizing s with
  | zero =>
    rw [State.pendingCount, Nat.add_eq_zero_iff, List.length_eq_zero_iff, List.length_eq_zero_iff] at count
    exact ⟨s, rfl, idle, count⟩
  | succ k ih =>
    have pending : ¬ s.Finished := by
      rintro ⟨-, frames, hostOps⟩
      simp [State.pendingCount, frames, hostOps] at count
    obtain ⟨p, granted⟩ := exists_granted idle pending
    obtain ⟨s', next, served⟩ := step_granted idle obeys granted
    rw [run_of_step next]
    exact ih served.inFlight (served.hostObeys obeys) (by have := served.pendingCount; omega)

/-! ### No port is starved -/

theorem ne_other (p : Port) : p ≠ p.other := by
  cases p <;> decide

theorem favoured_of_no_credit (h : s.credit = 0) : s.favoured = s.turn.other := if_pos h

theorem favoured_of_credit (h : s.credit ≠ 0) : s.favoured = s.turn := if_neg h

/-- A contested grant to the port with the turn spends one credit. -/
theorem chargeGrant_of_credit (h : s.credit ≠ 0) : s.chargeGrant = { s with credit := s.credit - 1 } := if_neg h

/-- Without credit, a contested grant passes the turn on, with a fresh burst length. -/
theorem chargeGrant_of_no_credit (h : s.credit = 0) :
    s.chargeGrant = { s.drawBurst with turn := s.turn.other } := if_pos h

theorem Untouched.pending (same : Untouched s t p) (pending : s.Pending p) : t.Pending p := by
  cases p with
  | protocol => rwa [State.Pending, same.1]
  | host => rwa [State.Pending, same.1]

/-- If port `p` has an operation pending and is not served next, the other port is, and the arbiter favours it. -/
theorem granted_or_contested (pending : s.Pending p) :
    s.Granted p ∨ s.favoured = p.other ∧ s.Granted p.other := by
  by_cases contested : s.Pending p.other
  · rcases eq_or_eq_other p s.favoured with favoured | favoured
    · exact .inl ⟨pending, fun _ => favoured⟩
    · exact .inr ⟨favoured, contested, fun _ => favoured⟩
  · exact .inl ⟨pending, fun h => absurd h contested⟩

/-- Port `p`'s oldest operation is answered within `n` steps. -/
def ServedWithin (n : Nat) (s : State) (p : Port) : Prop := ∃ k t, k ≤ n ∧ run k s = .next t ∧ TookOldest s t p

theorem ServedWithin.mono {m n : Nat} (within : ServedWithin m s p) (le : m ≤ n) : ServedWithin n s p := by
  obtain ⟨k, t, bound, rest⟩ := within
  exact ⟨k, t, bound.trans le, rest⟩

theorem ServedWithin.now {n : Nat} (idle : s.inFlight = none) (obeys : s.HostObeys) (granted : s.Granted p) :
    ServedWithin (n + 1) s p := by
  obtain ⟨t, next, served⟩ := step_granted idle obeys granted
  exact ⟨1, t, by omega, run_one next, served.took⟩

/-- A contest won by the other port puts off port `p`'s own operation by one step. -/
theorem ServedWithin.after_contest {n : Nat} (idle : s.inFlight = none) (obeys : s.HostObeys)
    (pending : s.Pending p) (granted : s.Granted p.other)
    (rest : ∀ t : State, t.turn = s.chargeGrant.turn → t.credit = s.chargeGrant.credit → t.inFlight = none →
      t.HostObeys → t.Pending p → ServedWithin n t p) : ServedWithin (n + 1) s p := by
  obtain ⟨t, next, served⟩ := step_granted idle obeys granted
  have same : Untouched s t p := by simpa using served.other
  obtain ⟨turn, credit⟩ := served.charged (by simpa using pending)
  obtain ⟨k, u, bound, runs, took⟩ :=
    rest t turn credit served.inFlight (served.hostObeys obeys) (same.pending pending)
  exact ⟨k + 1, u, by omega, (run_of_step next).trans runs, took.after_untouched same (step_keeps_build s next).1⟩

/-- While the other port has the turn, it is served at most `credit` times before port `p` is. -/
theorem servedWithin_credit (c : Nat) {s : State} {p : Port} (credit : s.credit = c) (turn : s.turn = p.other)
    (idle : s.inFlight = none) (obeys : s.HostObeys) (pending : s.Pending p) : ServedWithin (c + 1) s p := by
  induction c generalizing s with
  | zero =>
    refine .now idle obeys ⟨pending, fun _ => ?_⟩
    rw [favoured_of_no_credit credit, turn, other_other]
  | succ c ih =>
    rcases granted_or_contested pending with granted | ⟨-, granted⟩
    · exact .now idle obeys granted
    · refine .after_contest idle obeys pending granted fun t turn' credit' => ?_
      rw [chargeGrant_of_credit (by omega)] at turn' credit'
      exact ih (credit'.trans (Nat.sub_eq_of_eq_add credit)) (turn'.trans turn)

/-- R76, log 3: a pending operation waits at most the credit left and one more burst, whoever has the turn. -/
theorem servedWithin_burst (idle : s.inFlight = none) (obeys : s.HostObeys) (pending : s.Pending p) :
    ServedWithin (s.credit + Config.burst s.draws + 2) s p := by
  rcases eq_or_eq_other p s.turn with turn | turn
  · rcases granted_or_contested pending with granted | ⟨favoured, granted⟩
    · exact .now idle obeys granted
    -- The port with the turn loses a contest only when its credit is spent; the turn then passes on.
    have spent : s.credit = 0 := by
      by_contra credit
      rw [favoured_of_credit credit, turn] at favoured
      exact ne_other p favoured
    have bounded : ServedWithin (Config.burst s.draws + 1 + 1) s p := by
      refine .after_contest idle obeys pending granted fun t turn' credit' => ?_
      rw [chargeGrant_of_no_credit spent] at turn' credit'
      exact servedWithin_credit _ credit' (turn'.trans (congrArg Port.other turn))
    exact bounded.mono (by omega)
  · exact (servedWithin_credit _ rfl turn idle obeys pending).mono (by omega)

end

/-! ### The obligations -/

/-- Settles O57: both ports are served in order. -/
theorem runServesInArrivalOrder : Obligations.RunServesInArrivalOrder := by
  intro k s t idle runs
  exact ⟨run_servedInOrder k idle runs .protocol, run_servedInOrder k idle runs .host⟩

/-- Settles O19: the run ends, and its order of service gives one answer for each operation that was pending. -/
theorem runEndsWithEveryAnswer : Obligations.RunEndsWithEveryAnswer := by
  intro s idle obeys
  obtain ⟨t, runs, idle', no_frames, no_hostOps⟩ := run_finishes _ idle obeys rfl
  obtain ⟨bs, os, frames, outcomes, each_frame⟩ := run_servedInOrder _ idle runs .protocol
  obtain ⟨ops, rs, hostOps, results, each_hostOp⟩ := run_servedInOrder _ idle runs .host
  refine ⟨t, runs, ⟨idle', no_frames, no_hostOps⟩, ⟨os, outcomes, ?_⟩, ⟨rs, results, ?_⟩⟩
  · rw [frames, no_frames, List.append_nil, each_frame.length_eq]
  · rw [hostOps, no_hostOps, List.append_nil, each_hostOp.length_eq]

/-- Settles O17, by the arbiter's bound for the protocol port. -/
theorem pendingFrameIsServed : Obligations.PendingFrameIsServed := by
  intro s b bs idle obeys frames
  have pending : s.Pending .protocol := by simp [State.Pending, frames]
  obtain ⟨k, t, bound, runs, b', o, frames', outcomes, -⟩ := servedWithin_burst idle obeys pending
  cases frames.symm.trans frames'
  exact ⟨k, t, bound, runs, rfl, o, outcomes⟩

/-- Settles O18, by the arbiter's bound for the host port. -/
theorem pendingHostOpIsServed : Obligations.PendingHostOpIsServed := by
  intro s o os idle obeys hostOps
  have pending : s.Pending .host := by simp [State.Pending, hostOps]
  obtain ⟨k, t, bound, runs, o', r, hostOps', results, -⟩ := servedWithin_burst idle obeys pending
  cases hostOps.symm.trans hostOps'
  exact ⟨k, t, bound, runs, rfl, r, results⟩

end Sys2Proof.Machine
end

section
/-!
PROOFS. The invariant of the core (10_state.md section 5): it holds at reset (R320 to R322), and steps, inputs from
outside and resets keep it, so it holds in every state of every run of every legal build.
-/

namespace Sys2Proof.Machine

/-! ### Responses -/

/-- R95: an answer's payload is of its function byte's format. -/
theorem Answer.responsePayload {i : Instr} {s : State} {h : Header} {ws : List Word} {fc : Byte} {pl : List Byte}
    (size : s.n ≤ 125) (ans : Answer i s h ws fc pl) : ResponsePayload fc pl := by
  cases ans with
  | read fc q data hfc hq hlen =>
    refine .inl ⟨hfc, _, data, rfl, ?_⟩
    rw [hlen, BitVec.toNat_ofNat, Nat.mod_eq_of_lt (by omega)]
  | wrote ws fc x y hfc hlen hfit => exact .inr (.inl ⟨hfc, rfl⟩)
  | raised fc code hcode => exact .inr (.inr ⟨bit7_set fc, by simpa using hcode⟩)

/-- R189, R190: every answer is a response that a client can take apart. -/
theorem Answer.responseOk {i : Instr} {s : State} {h : Header} {ws : List Word} {fc : Byte} {pl : List Byte}
    (size : s.n ≤ 125) (ans : Answer i s h ws fc pl) : ResponseOk s.params s.n (frameBytes s.params h fc pl) := by
  have short := ans.payload_length_le
  have fits : 8 + pl.length ≤ max 12 (9 + 2 * s.n) := by omega
  refine ⟨by rwa [frameBytes_length], { hdr := h, fc := fc, payload := pl }, ?_, ans.responsePayload size⟩
  exact decodeADU_frameBytes _ _ h fc pl rfl fits (Laws.Accepted.lenOf_small _ _ (by omega))

/-! ### Reset, inputs, and steps -/

section
variable {s t : State}

/-- What keeps the build, leaves the ports idle and adds only well-framed responses keeps the invariant. -/
theorem State.Inv.extend (inv : s.Inv) (params : t.params = s.params) (size : t.n = s.n) (idle : t.Idle)
    (os : List ProtocolOutcome) (outcomes : t.outcomes = s.outcomes ++ os)
    (new : ∀ bytes, .response bytes ∈ os → ResponseOk s.params s.n bytes) : t.Inv := by
  refine ⟨?_, idle, fun bytes mem => ?_⟩
  · rw [State.LegalBuild, size, params]
    exact inv.legal
  · rw [params, size]
    rw [outcomes, List.mem_append] at mem
    exact mem.elim (inv.responses bytes) (new bytes)

/-- The reset of a legal build owes no response. -/
theorem resetWith_inv {p : Params} {n : Nat} (init : Nat → Word) (size : Config.LegalSize n) (legal : p.Legal) :
    (State.resetWith p n init).Inv :=
  ⟨⟨by rwa [resetWith_n], legal⟩, ⟨rfl, rfl⟩, nofun⟩

theorem State.Inv.offer (inv : s.Inv) (x : Transaction) : (s.offer x).Inv := by
  cases x with
  | frame b => exact ⟨inv.legal, inv.idle, inv.responses⟩
  | hostOp o => exact ⟨inv.legal, inv.idle, inv.responses⟩

theorem State.Inv.resetAgain (inv : s.Inv) (init : Nat → Word) : (s.resetAgain init).Inv := by
  refine ⟨?_, ⟨rfl, rfl⟩, nofun⟩
  rw [State.LegalBuild, resetAgain_n, resetAgain_params]
  exact inv.legal

theorem State.Inv.step (inv : s.Inv) (next : step s = .next t) : t.Inv := by
  obtain ⟨params, size⟩ := step_keeps_build s next
  obtain ⟨inFlight, outbound⟩ := inv.idle
  rcases step_idle_cases s t inFlight next with ⟨rfl, -⟩ | ⟨s₁, same, served⟩
  · exact inv
  obtain ⟨-, -, -, -, -, outbound₁, outcomes, -, -⟩ := same.fields
  rcases served with ⟨b, bs, -, rfl | ⟨i, hdr, ws, fc, pl, -, ans, rfl⟩⟩ | ⟨o, os, -, k, ws, r, rfl⟩
  · refine inv.extend params size ⟨rfl, rfl⟩ [.dropped] ?_ (by simp)
    rw [← outcomes]
    rfl
  · refine inv.extend params size ⟨rfl, rfl⟩ [.response (frameBytes s.params hdr fc pl)] ?_ fun bytes mem => ?_
    · simp [outcomes]
    · cases List.mem_singleton.mp mem
      exact ans.responseOk inv.legal.1.2
  · refine inv.extend params size ⟨rfl, ?_⟩ [] ?_ nofun
    · simp [outbound₁, outbound]
    · simp [outcomes]

end

/-! ### The obligations -/

/-- Settles O6: the build stays, the port is idle again, and the one new response is well-framed. -/
theorem stepKeepsInvariant : Obligations.StepKeepsInvariant := fun _ _ inv next => inv.step next

/-- Settles O3: this hardware's reset, field by field. -/
theorem resetOfThisHardware : Obligations.ResetOfThisHardware :=
  ⟨resetWith_n _ _, rfl, fun _ hi => resetWith_readWord _ _ hi, rfl, rfl⟩

/-- Settles O4: nothing is owed after reset. -/
theorem resetMeetsInvariant : Obligations.ResetMeetsInvariant := fun _ _ init size legal =>
  resetWith_inv init size legal

/-- Settles O55: inputs only join the queues, and a reset keeps the build. -/
theorem inputsAndResetKeepInvariant : Obligations.InputsAndResetKeepInvariant := fun _ inv =>
  ⟨fun b => inv.offer (.frame b), fun o => inv.offer (.hostOp o), inv.resetAgain⟩

/-- Settles O56, by induction on how the state was reached. -/
theorem reachableStatesMeetInvariant : Obligations.ReachableStatesMeetInvariant := by
  intro s reached
  induction reached with
  | reset p n init size legal => exact resetWith_inv init size legal
  | offer s x _ inv => exact inv.offer x
  | resetAgain s init _ inv => exact inv.resetAgain init
  | step s t _ next inv => exact inv.step next

end Sys2Proof.Machine
end
